-- ==== Sys2Proof/Word.lean ====
section
/-! DEFINITION. The word types of the block (spec/00_scope.md R7, R8): every value is an unsigned bit vector, bit 0 the
least significant. -/

namespace Sys2Proof

/-- An 8-bit value: `BYTE_W` and `CHAR_W` are both 8 (R7). A byte on the encoder's input and the decoder's output, a
character code on the other two ports. -/
abbrev Byte := BitVec 8

/-- A 6-bit alphabet index: `SEXTET_W` = 6 (R7). -/
abbrev Sextet := BitVec 6

/-- A 24-bit group value: 3 bytes, or 4 sextets (R9, R51). -/
abbrev Group := BitVec 24

/-- A port word: `WORD_W` = 10 (R7, R70). Bits [9:8] are `KIND`, bits [7:0] `PAYLOAD` (R71, R74). -/
abbrev PortWord := BitVec 10

end Sys2Proof
end

