-- ==== Sys2Proof/Syntax.lean ====
section
/-! DEFINITION. The instructions of the block (one constructor per row of spec/opcode_table.json) and the assembler
lines of spec/30_encoding.md R83 and R84. -/

namespace Sys2Proof

/-- The two engines, each named by its port (R214). The port a word is pushed on selects the engine (R72). -/
inductive Engine where
  | enc
  | dec
  deriving DecidableEq, Repr

/-- The four instructions (R72). An `END` has no operand: its payload is ignored (R81). -/
inductive Instr where
  /-- `ENC.DATA b` (R133) -/
  | encData (b : Byte)
  /-- `ENC.END` (R134) -/
  | encEnd
  /-- `DEC.DATA c` (R166) -/
  | decData (c : Byte)
  /-- `DEC.END` (R168) -/
  | decEnd
  deriving DecidableEq, Repr

/-- The payload as an assembler line writes it: a number, or a quoted character (R83). DESIGN CHOICE, log 19: R83 says
"for character codes" and its table names the quoted form for `DEC.DATA` only, while the programs of
spec/95_test_vectors.md write `ENC.DATA 'h'`; the model takes both forms on both. -/
inductive AsmOperand where
  | number (n : Nat)
  | quoted (c : Char)
  deriving DecidableEq, Repr

/-- One line of assembler source: the four mnemonics (R83), the pseudo-instructions (R84), and the `END` without a
prefix, which R84 does not allow. -/
inductive AsmLine where
  /-- `ENC.DATA <byte>`, or with a quoted character (log 19) -/
  | encData (o : AsmOperand)
  | encEnd
  | decData (o : AsmOperand)
  | decEnd
  /-- `ENC.MSG b0, …, bn-1`; no operand and the empty string are the empty list; the bytes are numbers (log 19) -/
  | encMsg (bytes : List Nat)
  /-- `ENC.STR "text"` -/
  | encStr (text : List Char)
  /-- `DEC.MSG "text"` -/
  | decMsg (text : List Char)
  /-- `END` with no port named -/
  | bareEnd
  deriving DecidableEq, Repr

end Sys2Proof
end

