-- ==== Sys2Proof/WellFormed.lean ====
section
/-! DEFINITION. What may be written and what may be pushed. An `Instr` is well formed by its types: its operand is an
8-bit value and no payload value is illegal (spec/30_encoding.md R73). The checks are on the assembler's lines (R83,
R84) and on the words a host may push (R80, spec/70_reset_and_hazards.md R236). -/

namespace Sys2Proof

/-- A number fits a payload: 0x00..0xFF (R83). -/
def payloadFits (n : Nat) : Bool := decide (n < 256)

/-- A character of plain ASCII, the only text `ENC.STR` names a code for (R12, R84). -/
def isAscii (c : Char) : Bool := decide (c.toNat < 128)

/-- An assembler line that may be written: numbers in range, a character on the encoder's side plain ASCII, the port
named (logs 15, 19). -/
def AsmLine.wf : AsmLine → Bool
  | .encData (.number n) => payloadFits n
  | .encData (.quoted c) => isAscii c
  | .encEnd => true
  | .decData (.number n) => payloadFits n
  | .decData (.quoted _) => true
  | .decEnd => true
  | .encMsg bytes => bytes.all payloadFits
  | .encStr text => text.all isAscii
  | .decMsg _ => true
  | .bareEnd => false

/-- A word a host may push: its `KIND` is not one of the reserved 0b10 and 0b11 (R80, R236). -/
def inputWordWf (w : PortWord) : Bool := !w.getLsbD 9

end Sys2Proof
end

