-- ==== Sys2Proof/Decode.lean ====
section
/-! DEFINITION. Decoding an input word, total on every 10-bit word (spec/30_encoding.md R78); the encoder from the
same table (R71, R83); the output words (R74); the assembler (R83, R84). -/

namespace Sys2Proof

/-- `KIND`, bits [9:8] of a port word (R71, R74). -/
def kind (w : PortWord) : BitVec 2 := w.extractLsb' 8 2

/-- `PAYLOAD`, bits [7:0] of a port word (R71, R74). -/
def payload (w : PortWord) : Byte := w.extractLsb' 0 8

/-- What a word on an input port is: an instruction, or a reserved word, rejected by name with the word (R78). -/
inductive Decoded where
  | instr (i : Instr)
  | reserved (w : PortWord)
  deriving DecidableEq, Repr

/-- `decode_iw(port, w)` of R78. -/
def decodeIw (port : Engine) (w : PortWord) : Decoded :=
  if kind w = 0b00#2 then
    match port with
    | .enc => .instr (.encData (payload w))
    | .dec => .instr (.decData (payload w))
  else if kind w = 0b01#2 then
    match port with
    | .enc => .instr .encEnd
    | .dec => .instr .decEnd
  else .reserved w

/-- `DATA(x)` = `{0b00, x}`: the data word of both formats (R71, R74). -/
def dataWord (x : Byte) : PortWord := 0b00#2 ++ x

/-- The `END` word as the assembler writes it, `{0b01, 0x00}` (R81, R83). -/
def endWord : PortWord := 0b01#2 ++ 0x00#8

/-- The output word `EOM` = `{0b01, 0x00}` = 0x100 (R74). -/
def eom : PortWord := 0b01#2 ++ 0x00#8

/-- The engine an instruction belongs to: the port its word is pushed on (R72). -/
def Instr.engine : Instr → Engine
  | .encData _ => .enc
  | .encEnd => .enc
  | .decData _ => .dec
  | .decEnd => .dec

/-- The word of an instruction, on the port `i.engine` (R83). -/
def encode : Instr → PortWord
  | .encData b => dataWord b
  | .encEnd => endWord
  | .decData c => dataWord c
  | .decEnd => endWord

/-- A word with its port as ONE number: bits [9:0] the word, bit 10 the port (0 `ENC_IQ`, 1 `DEC_IQ`). Bit 10 is the
model's own: the block's words have ten bits and the port is not a bit of the word (R72). DESIGN CHOICE, log 11. -/
def portOfTableWord (w : Nat) : Engine := if w.testBit 10 then .dec else .enc

/-- The instruction the decoder reads from a word numbered as spec/opcode_table.json numbers it (bits [9:0]); bit 10
names the port (log 11). A word with a bit above 10, and a reserved word, give none. -/
def decodeTableWord (nbits w : Nat) : Option Instr :=
  let v := w % 2 ^ nbits
  if v < 2048 then
    match decodeIw (portOfTableWord v) (BitVec.ofNat 10 v) with
    | .instr i => some i
    | .reserved _ => none
  else none

/-- The 8-bit code of one character of a text. A character outside ASCII has no code of its own: the host maps it to
one that `classify` calls invalid, for example 0xFF, and never truncates it (R236, D11; log 15). -/
def charCode (c : Char) : Byte := if isAscii c then BitVec.ofNat 8 c.toNat else 0xFF#8

/-- The payload an assembler operand writes (R83). -/
def AsmOperand.value : AsmOperand → Byte
  | .number n => BitVec.ofNat 8 n
  | .quoted c => charCode c

/-- The instructions one assembler line stands for, in order (R83, R84); none for a line that may not be written. -/
def AsmLine.expand (l : AsmLine) : Option (List Instr) :=
  if l.wf then
    match l with
    | .encData o => some [.encData o.value]
    | .encEnd => some [.encEnd]
    | .decData o => some [.decData o.value]
    | .decEnd => some [.decEnd]
    | .encMsg bytes => some (bytes.map (fun n => Instr.encData (BitVec.ofNat 8 n)) ++ [.encEnd])
    | .encStr text => some (text.map (fun c => Instr.encData (charCode c)) ++ [.encEnd])
    | .decMsg text => some (text.map (fun c => Instr.decData (charCode c)) ++ [.decEnd])
    | .bareEnd => none
  else none

/-- The words an assembler line puts on the ports, in order (R83). -/
def AsmLine.assemble (l : AsmLine) : Option (List (Engine × PortWord)) :=
  l.expand.map (fun is => is.map (fun i => (i.engine, encode i)))

/-- A word that ends a message: `END` on an input port, `EOM` on an output port (R77). -/
def endsMessage (w : PortWord) : Bool := kind w == 0b01#2

/-- The results on an output port, oldest first: the payloads of the `DATA` words up to each `EOM` (R77). A last run
of `DATA` words with no `EOM` is no result (R236). `acc` holds the payloads since the last `EOM`. -/
def resultsFrom (acc : List Byte) : List PortWord → List (List Byte)
  | [] => []
  | w :: ws => if endsMessage w then acc :: resultsFrom [] ws else resultsFrom (acc ++ [payload w]) ws

/-- The results a sequence of output words holds (R77). -/
def results (ws : List PortWord) : List (List Byte) := resultsFrom [] ws

end Sys2Proof
end

