-- ==== Sys2Proof/Config.lean ====
section
/-! DEFINITION. What one build of the block fixes and no step changes (spec/00_scope.md R7, spec/10_state.md R35).
The one parameter the spec marks OPEN is `DEC_STAGE_CAP`. -/

namespace Sys2Proof

/-- The build-time parameters. `decStageCap` is `DEC_STAGE_CAP`: `some n` is the capacity of n bytes, `none` is
unbounded (R7: "a natural number or … unbounded"). It is carried in State as plain data and no step writes it, so a
statement about every state is a statement about every capacity (log 2). -/
structure Config where
  decStageCap : Option Nat
  deriving DecidableEq, Repr

/-- The build with an unbounded staging buffer; the one `State.reset` names. DESIGN CHOICE, log 2. -/
def Config.unbounded : Config := { decStageCap := none }

end Sys2Proof
end

