-- ==== Sys2Proof/Machine/Alphabet.lean ====
section
/-! DEFINITION. The two alphabet ROMs and what reads them (spec/40_alphabet.md R100 to R108). They are constants: no
word, no step and no reset writes them (R108, R232). -/

namespace Sys2Proof.Machine

/-- Entries 0 to 15 of `FWD`, as the code column of R100 lists them. -/
def fwd0to15 : List Byte :=
  [0x41, 0x42, 0x43, 0x44, 0x45, 0x46, 0x47, 0x48,
   0x49, 0x4A, 0x4B, 0x4C, 0x4D, 0x4E, 0x4F, 0x50]

/-- Entries 16 to 31 of `FWD`, as the code column of R100 lists them. -/
def fwd16to31 : List Byte :=
  [0x51, 0x52, 0x53, 0x54, 0x55, 0x56, 0x57, 0x58,
   0x59, 0x5A, 0x61, 0x62, 0x63, 0x64, 0x65, 0x66]

/-- Entries 32 to 47 of `FWD`, as the code column of R100 lists them. -/
def fwd32to47 : List Byte :=
  [0x67, 0x68, 0x69, 0x6A, 0x6B, 0x6C, 0x6D, 0x6E,
   0x6F, 0x70, 0x71, 0x72, 0x73, 0x74, 0x75, 0x76]

/-- Entries 48 to 63 of `FWD`, as the code column of R100 lists them. -/
def fwd48to63 : List Byte :=
  [0x77, 0x78, 0x79, 0x7A, 0x30, 0x31, 0x32, 0x33,
   0x34, 0x35, 0x36, 0x37, 0x38, 0x39, 0x2B, 0x2F]

/-- The forward alphabet ROM `FWD`: 64 character codes, indexed by a sextet (R100). -/
def fwdRom : List Byte := fwd0to15 ++ fwd16to31 ++ fwd32to47 ++ fwd48to63

/-- The read `FWD[s]` (R10). The ROM has an entry for every sextet, so the default is never read. -/
def fwd (s : Sextet) : Byte := fwdRom.getD s.toNat 0x00

/-- `'='`, the pad character (R11). -/
def padChar : Byte := 0x3D

/-- The entry `INV[c]` stores for the pad character (R103). -/
def invPad : Byte := 0x40

/-- The entry `INV[c]` stores for a code outside the alphabet and the pad (R103). -/
def invInvalid : Byte := 0xFF

/-- The inverse alphabet ROM `INV`, all 256 entries, as R103 gives its contents. -/
def inv (c : Byte) : Byte :=
  match fwdRom.findIdx? (fun e => e == c) with
  | some i => BitVec.ofNat 8 i
  | none => if c = padChar then invPad else invInvalid

/-- The three classes of a character code (R105). -/
inductive CharClass where
  | data (v : Sextet)
  | pad
  | invalid
  deriving DecidableEq, Repr

/-- `classify(c)`: `INV[c]` read as a class (R105). -/
def classify (c : Byte) : CharClass :=
  let e := inv c
  if e ≤ 0x3F then .data (e.extractLsb' 0 6)
  else if e = invPad then .pad
  else .invalid

/-- `map6(s)`, the encoder's 6-bit mapper (R107). -/
def map6 (s : Sextet) : Byte := fwd s

end Sys2Proof.Machine
end

