-- ==== Sys2Proof/Machine/Operands.lean ====
section
/-! DEFINITION. Cutting and joining the bits of a group: the encoder's bit-grouper (spec/41_encoder.md R132) and the
decoder's bit-reassembler (spec/42_decoder.md R163). First byte and first sextet are the most significant (R9, R51). -/

namespace Sys2Proof.Machine

/-- The sextet `G[23:18]` (R9). -/
def sextet0 (g : Group) : Sextet := g.extractLsb' 18 6
/-- The sextet `G[17:12]` (R9). -/
def sextet1 (g : Group) : Sextet := g.extractLsb' 12 6
/-- The sextet `G[11:6]` (R9). -/
def sextet2 (g : Group) : Sextet := g.extractLsb' 6 6
/-- The sextet `G[5:0]` (R9). -/
def sextet3 (g : Group) : Sextet := g.extractLsb' 0 6

/-- The byte `G[23:16]` (R9). -/
def byte0 (g : Group) : Byte := g.extractLsb' 16 8
/-- The byte `G[15:8]` (R9). -/
def byte1 (g : Group) : Byte := g.extractLsb' 8 8
/-- The byte `G[7:0]` (R9). -/
def byte2 (g : Group) : Byte := g.extractLsb' 0 8

/-- `{b0, b1, b2}`: a group from its bytes (R51). -/
def groupOfBytes (b0 b1 b2 : Byte) : Group := b0 ++ b1 ++ b2

/-- `{s0, s1, s2, s3}`: a group from its sextets (R51). -/
def groupOfSextets (s0 s1 s2 s3 : Sextet) : Group := s0 ++ s1 ++ s2 ++ s3

/-- The byte slot `ENC_HOLD[15:8]` (R25). -/
def holdFirst (h : BitVec 16) : Byte := h.extractLsb' 8 8

/-- The byte slot `ENC_HOLD[7:0]` (R25). -/
def holdSecond (h : BitVec 16) : Byte := h.extractLsb' 0 8

/-- `{b0, b1}`: the two byte slots of `ENC_HOLD` (R25). -/
def holdOf (b0 b1 : Byte) : BitVec 16 := b0 ++ b1

/-- The group the third byte completes, `{ENC_HOLD, b}` (R133); with 0x00 for `b`, the padded 2-byte tail (R134). -/
def groupOfHold (h : BitVec 16) (b : Byte) : Group := h ++ b

/-- `DEC_ACC` with the first sextet only (R166, position 0). -/
def accFirst (v : Sextet) : BitVec 18 := v ++ 0#12

/-- `DEC_ACC` after the second sextet: `{DEC_ACC[17:12], v, 0b000000}` (R166, position 1). -/
def accSecond (acc : BitVec 18) (v : Sextet) : BitVec 18 := acc.extractLsb' 12 6 ++ v ++ 0#6

/-- `DEC_ACC` after the third sextet: `{DEC_ACC[17:6], v}` (R166, position 2). -/
def accThird (acc : BitVec 18) (v : Sextet) : BitVec 18 := acc.extractLsb' 6 12 ++ v

/-- The group the fourth character completes, `{DEC_ACC, v}`; a pad counts as 0 (R166, position 3). -/
def groupOfAcc (acc : BitVec 18) (v : Sextet) : Group := acc ++ v

/-- The four characters of a full group, in order (R130, R133). -/
def groupChars (g : Group) : List Byte := [map6 (sextet0 g), map6 (sextet1 g), map6 (sextet2 g), map6 (sextet3 g)]

/-- The characters of a 1-byte tail: two data characters and `==` (R130, R134). -/
def tailChars1 (g : Group) : List Byte := [map6 (sextet0 g), map6 (sextet1 g), padChar, padChar]

/-- The characters of a 2-byte tail: three data characters and `=` (R130, R134). -/
def tailChars2 (g : Group) : List Byte := [map6 (sextet0 g), map6 (sextet1 g), map6 (sextet2 g), padChar]

/-- The bytes of a group of four data characters (R163). -/
def groupBytes3 (g : Group) : List Byte := [byte0 g, byte1 g, byte2 g]

/-- The bytes of a group that ends in one pad (R163). -/
def groupBytes2 (g : Group) : List Byte := [byte0 g, byte1 g]

/-- The byte of a group that ends in two pads (R163). -/
def groupBytes1 (g : Group) : List Byte := [byte0 g]

/-- The sextet a character counts as in its group: a pad counts as 0 (R160). -/
def sextetOf (c : Byte) : Sextet :=
  match classify c with
  | .data v => v
  | .pad => 0
  | .invalid => 0

end Sys2Proof.Machine
end

