-- ==== Sys2Proof/Machine/State.lean ====
section
/-! DEFINITION. The state of the block (spec/10_state.md R21 to R40) as plain data, the reasons a step can stop, and
the state after reset. The two ROMs are constants and stand in Machine/Alphabet.lean (R21; log 1). -/

namespace Sys2Proof.Machine

/-- The encoder's own fields (R24, R25). -/
structure EncState where
  /-- `ENC_CNT`: how many bytes of the current group have been received, 0 to 2 -/
  cnt : BitVec 2
  /-- `ENC_HOLD`: the first byte in [15:8], the second in [7:0]; a slot not filled holds 0 -/
  hold : BitVec 16
  deriving DecidableEq, Repr

/-- The decoder's own fields (R28 to R33). -/
structure DecState where
  /-- `DEC_POS`: how many characters of the current group have been received; k-1 is `EXPECT_CHAR_k` -/
  pos : BitVec 2
  /-- `DEC_ACC`: the sextets of the current group, the first in [17:12] -/
  acc : BitVec 18
  /-- `DEC_PAD3`: position 3 of the current group held a pad character -/
  pad3 : Bool
  /-- `DEC_CLOSED`: a group ending in padding has been completed in this message -/
  closed : Bool
  /-- `DEC_ERR`: the error latch -/
  err : Bool
  /-- `DEC_STAGE`: the staging buffer, oldest byte first -/
  stage : List Byte
  deriving DecidableEq, Repr

/-- The encoder's idle state: its fields at their reset values (R40, R41). -/
def EncState.idle : EncState := { cnt := 0, hold := 0 }

/-- The decoder's idle state: its fields at their reset values (R40, R41). -/
def DecState.idle : DecState := { pos := 0, acc := 0, pad3 := false, closed := false, err := false, stage := [] }

/-- The fault reasons of R203. They are recorded in `FAULTS` by a step that answers a next state. -/
inductive FaultReason where
  /-- code 1: an engine's head word has `KIND` 0b10 or 0b11. Safe: the hardware's behaviour is unspecified (R80). -/
  | reservedWord
  /-- code 2: a `STAGE` of `DEC.DATA` would pass `DEC_STAGE_CAP`. Safe: as above (R170). -/
  | stageOverflow
  deriving DecidableEq, Repr

/-- One entry of `FAULTS` for the engine whose list it stands in (R203): the reason, the word, and, for
`STAGE_OVERFLOW`, `len(DEC_STAGE)` before the step. -/
structure FaultEntry where
  reason : FaultReason
  word : PortWord
  stageLen : Option Nat
  deriving DecidableEq, Repr

/-- Whose turn it is: one step of one of the four actors of R20. -/
inductive Turn where
  /-- a step of the encoder engine -/
  | enc
  /-- a step of the decoder engine -/
  | dec
  /-- the host's `PUSH_ENC(w)` -/
  | pushEnc (w : PortWord)
  /-- the host's `PUSH_DEC(w)` -/
  | pushDec (w : PortWord)
  /-- the host's `POP_ENC` -/
  | popEnc
  /-- the host's `POP_DEC` -/
  | popDec
  /-- the `RESET` input takes this level: true asserted, false released (R230; log 6) -/
  | reset (asserted : Bool)
  deriving DecidableEq, Repr

/-- The whole state of the block and, below it, the model's own record of the world outside it. -/
structure State where
  /-- the build's parameters; no step writes them (R35; log 2) -/
  cfg : Config
  enc : EncState
  dec : DecState
  /-- `ENC_IQ`, oldest word first (R26) -/
  encIq : List PortWord
  /-- `ENC_OQ`, oldest word first (R27) -/
  encOq : List PortWord
  /-- `DEC_IQ`, oldest word first (R26) -/
  decIq : List PortWord
  /-- `DEC_OQ`, oldest word first (R27) -/
  decOq : List PortWord
  /-- the entries of `FAULTS` for `ENC`, no repeats (R38; log 8) -/
  encFaults : List FaultEntry
  /-- the entries of `FAULTS` for `DEC`, no repeats (R38; log 8) -/
  decFaults : List FaultEntry
  /-- the level of the `RESET` input (R230; log 6) -/
  resetIn : Bool
  /-- MODEL'S OWN: the turns still to come (R20, R21; log 3) -/
  schedule : List Turn
  /-- MODEL'S OWN: the words the host has popped from `ENC_OQ`, oldest first (R55; log 7) -/
  encPopped : List PortWord
  /-- MODEL'S OWN: the words the host has popped from `DEC_OQ`, oldest first (R55; log 7) -/
  decPopped : List PortWord
  deriving DecidableEq, Repr

/-- Why a step may stop the whole model. -/
inductive Fault where
  /-- Raised by `ENC.DATA` and `ENC.END` when `ENC_CNT` = 3, for which R133 and R134 give no case. Safe: "The value 3
  is never reached" (R24). DESIGN CHOICE, log 10. -/
  | encCountThree
  deriving DecidableEq, Repr

/-- Why a step may be refused. -/
inductive Refusal where
  /-- Raised by an arm of exec that has no meaning yet. Safe. No arm is left with it. -/
  | notModelled (mnemonic : String)
  /-- Raised by a host turn that pops this engine's output queue when it is empty: "A pop from an empty queue is not
  a step: the host waits" (R55); U9: "`refuse`: the `POP` is not enabled". Safe. Log 5. -/
  | popEmpty (port : Engine)
  deriving DecidableEq, Repr

/-- What a meaning or a turn answers. -/
abbrev Answer := Host.Outcome State Fault Refusal

/-- The state right after reset of a build with these parameters: every field at the value of R40, `FAULTS` empty as it
starts (R38), reset released, nothing scheduled and nothing popped. -/
def State.resetOf (cfg : Config) : State where
  cfg := cfg
  enc := EncState.idle
  dec := DecState.idle
  encIq := []
  encOq := []
  decIq := []
  decOq := []
  encFaults := []
  decFaults := []
  resetIn := false
  schedule := []
  encPopped := []
  decPopped := []

/-- The machine right after reset (R40, R233), in the build with an unbounded staging buffer (log 2). -/
def State.reset : State := State.resetOf Config.unbounded

end Sys2Proof.Machine
end

