-- ==== Sys2Proof/Machine/Flags.lean ====
section
/-! DEFINITION. The decoder's three status bits `DEC_ERR`, `DEC_PAD3` and `DEC_CLOSED` and the fields each change of
them takes along (spec/42_decoder.md R165 to R168). The block has no flag a program can see (spec/10_state.md R34). -/

namespace Sys2Proof.Machine

/-- `ERROR` on the decoder's fields: the latch set, all else cleared (R167). The error path stands where taking a trap
would (spec/60_exceptions.md R208): nothing is saved, no mode changes and the next word follows as always. -/
def DecState.latchError (_d : DecState) : DecState := { DecState.idle with err := true }

/-- The pad in position 3: `DEC_PAD3 <- 1`, `DEC_POS <- 3` (R166). -/
def DecState.padThird (d : DecState) : DecState := { d with pad3 := true, pos := 3 }

/-- A group of four data characters is complete: `DEC_ACC <- 0`, `DEC_POS <- 0` (R166). -/
def DecState.nextGroup (d : DecState) : DecState := { d with acc := 0, pos := 0 }

/-- A group that ends in padding is complete: `DEC_CLOSED <- 1` and the group's fields cleared (R166). -/
def DecState.closeGroup (d : DecState) : DecState := { d with closed := true, pad3 := false, acc := 0, pos := 0 }

/-- The message so far is valid and made of whole groups: what `DEC.END` asks (R168). -/
def DecState.valid (d : DecState) : Bool := !d.err && decide (d.pos = 0)

/-- The code of a fault reason (R203). -/
def FaultReason.code : FaultReason → Nat
  | .reservedWord => 1
  | .stageOverflow => 2

end Sys2Proof.Machine
end

