-- ==== Sys2Proof/Machine/Ops.lean ====
section
/-! DEFINITION. The operations the meanings and the agents share: the port queues (spec/20_memory.md R55, R56), the
model's fault record (spec/60_exceptions.md R203), `STAGE` (spec/42_decoder.md R166), the error path and the return
from it (R167, R168, spec/60_exceptions.md R208, R209), reset (spec/70_reset_and_hazards.md R230) and the fetch of an
engine's next word. -/

namespace Sys2Proof.Machine

/-! ### The port queues -/

/-- The encoder takes the head word of `ENC_IQ` (R56). -/
def State.takeEnc (s : State) : State := { s with encIq := s.encIq.tail }

/-- The decoder takes the head word of `DEC_IQ` (R56). -/
def State.takeDec (s : State) : State := { s with decIq := s.decIq.tail }

/-- `emit` of several words in one append on `ENC_OQ` (R10, R56). -/
def State.emitEnc (ws : List PortWord) (s : State) : State := { s with encOq := s.encOq ++ ws }

/-- `emit` of several words in one append on `DEC_OQ` (R10, R56). -/
def State.emitDec (ws : List PortWord) (s : State) : State := { s with decOq := s.decOq ++ ws }

/-- Write the encoder's fields. -/
def State.setEnc (e : EncState) (s : State) : State := { s with enc := e }

/-- Write the decoder's fields. -/
def State.setDec (d : DecState) (s : State) : State := { s with dec := d }

/-- The input queue of an engine (R26). -/
def State.inputQueue (s : State) (e : Engine) : List PortWord :=
  match e with
  | .enc => s.encIq
  | .dec => s.decIq

/-! ### The model's fault record -/

/-- The entries of `FAULTS` for an engine (R203). -/
def State.faultsOf (s : State) (e : Engine) : List FaultEntry :=
  match e with
  | .enc => s.encFaults
  | .dec => s.decFaults

/-- `FAULTS` as R203 writes it: (engine, entry), the encoder's first. -/
def State.faults (s : State) : List (Engine × FaultEntry) :=
  s.encFaults.map (fun f => (Engine.enc, f)) ++ s.decFaults.map (fun f => (Engine.dec, f))

/-- A set as a list with no repeats: add an entry that is not there yet. -/
def addFault (fs : List FaultEntry) (f : FaultEntry) : List FaultEntry := if f ∈ fs then fs else fs ++ [f]

/-- `raise Fault(reason)`: the entry is added to `FAULTS` and nothing else changes (R203); the word stays at the head of
its queue. -/
def State.raiseFault (e : Engine) (f : FaultEntry) (s : State) : State :=
  match e with
  | .enc => { s with encFaults := addFault s.encFaults f }
  | .dec => { s with decFaults := addFault s.decFaults f }

/-! ### The decoder's shared steps -/

/-- Taking the error path: the word is taken and `ERROR` acts (R167, R208). -/
def State.decError (s : State) : State := s.takeDec.setDec s.dec.latchError

/-- The end of the error path and of every message: the word is taken, the result's words are emitted, and the decoder
is idle again (R168, R209). -/
def State.decFinish (ws : List PortWord) (s : State) : State := ((s.takeDec.emitDec ws).setDec DecState.idle)

/-- `len(DEC_STAGE) + k <= DEC_STAGE_CAP` (R166, R170). -/
def State.stageFits (s : State) (k : Nat) : Bool :=
  match s.cfg.decStageCap with
  | none => true
  | some cap => decide (s.dec.stage.length + k ≤ cap)

/-- `STAGE(xs)` and the rest of its step: the word `c` is taken, `xs` joins the staging buffer and the other fields
become those of `d`; or, past the capacity, `Fault(STAGE_OVERFLOW)` and nothing else (R166, R170). -/
def State.stageThen (c : Byte) (xs : List Byte) (d : DecState) (s : State) : State :=
  if s.stageFits xs.length then s.takeDec.setDec { d with stage := s.dec.stage ++ xs }
  else s.raiseFault .dec { reason := .stageOverflow, word := dataWord c, stageLen := some s.dec.stage.length }

/-! ### Reset -/

/-- Reset acts: both engines idle, all four queues empty; the parameters and `FAULTS` are not changed (R40, R230). The
level of the input, the turns still to come and what the host has already popped are not the block's (logs 3, 6, 7). -/
def State.resetAct (s : State) : State :=
  { s with enc := EncState.idle, dec := DecState.idle, encIq := [], encOq := [], decIq := [], decOq := [] }

/-- The `RESET` input takes a level; when it is asserted reset acts (R230). -/
def State.driveReset (asserted : Bool) (s : State) : State :=
  if asserted then { s.resetAct with resetIn := true } else { s with resetIn := false }

/-! ### The host's four steps -/

/-- `PUSH_ENC(w)` (R55). -/
def State.pushEnc (w : PortWord) (s : State) : State := { s with encIq := s.encIq ++ [w] }

/-- `PUSH_DEC(w)` (R55). -/
def State.pushDec (w : PortWord) (s : State) : State := { s with decIq := s.decIq ++ [w] }

/-- `POP_ENC`: the head of `ENC_OQ` goes to the host; not enabled when the queue is empty (R55, U9). -/
def popEncTurn (s : State) : Answer :=
  match s.encOq with
  | [] => .refused (.popEmpty .enc)
  | w :: rest => .next { s with encOq := rest, encPopped := s.encPopped ++ [w] }

/-- `POP_DEC`: the head of `DEC_OQ` goes to the host; not enabled when the queue is empty (R55, U9). -/
def popDecTurn (s : State) : Answer :=
  match s.decOq with
  | [] => .refused (.popEmpty .dec)
  | w :: rest => .next { s with decOq := rest, decPopped := s.decPopped ++ [w] }

/-! ### The fetch of an engine's next word -/

/-- What an engine finds when its turn comes. -/
inductive Fetch where
  /-- no step is enabled: the queue is empty (R216) or `FAULTS` holds an entry for the engine (R204) -/
  | waits
  /-- the head word is reserved (R80) -/
  | reserved (w : PortWord)
  /-- the head word is an instruction (R72) -/
  | instr (i : Instr)
  deriving DecidableEq, Repr

/-- The head word of the engine's queue, decoded; an engine with a fault takes no step (R56, R204). -/
def fetch (e : Engine) (s : State) : Fetch :=
  if s.faultsOf e = [] then
    match s.inputQueue e with
    | [] => .waits
    | w :: _ =>
      match decodeIw e w with
      | .instr i => .instr i
      | .reserved w => .reserved w
  else .waits

end Sys2Proof.Machine
end

