-- ==== Sys2Proof/Machine/Decoder.lean ====
section
/-! DEFINITION. The meanings of `DEC.DATA` and `DEC.END` (spec/42_decoder.md R166, R168). Each is the engine's whole
atomic step (spec/20_memory.md R56): it takes its word from the head of `DEC_IQ` as well (log 18). -/

namespace Sys2Proof.Machine

/-- A data character of value `v` and code `c` in an open message (R166, the branch `k = Data(v)`). -/
def decDataChar (c : Byte) (v : Sextet) (s : State) : State :=
  if s.dec.pad3 then s.decError
  else if s.dec.pos = 0 then s.takeDec.setDec { s.dec with acc := accFirst v, pos := 1 }
  else if s.dec.pos = 1 then s.takeDec.setDec { s.dec with acc := accSecond s.dec.acc v, pos := 2 }
  else if s.dec.pos = 2 then s.takeDec.setDec { s.dec with acc := accThird s.dec.acc v, pos := 3 }
  else s.stageThen c (groupBytes3 (groupOfAcc s.dec.acc v)) s.dec.nextGroup

/-- A pad character of code `c` in an open message (R166, the branch `k = Pad`). -/
def decPadChar (c : Byte) (s : State) : State :=
  if s.dec.pos = 0 then s.decError
  else if s.dec.pos = 1 then s.decError
  else if s.dec.pos = 2 then s.takeDec.setDec s.dec.padThird
  else if s.dec.pad3 then s.stageThen c (groupBytes1 (groupOfAcc s.dec.acc 0)) s.dec.closeGroup
  else s.stageThen c (groupBytes2 (groupOfAcc s.dec.acc 0)) s.dec.closeGroup

/-- `DEC.DATA c` (R166): the error latch first, then an invalid code, then a closed message, then the class. -/
def execDecData (c : Byte) (s : State) : Answer :=
  if s.dec.err then .next s.takeDec
  else
    match classify c with
    | .invalid => .next s.decError
    | .pad => .next (if s.dec.closed then s.decError else decPadChar c s)
    | .data v => .next (if s.dec.closed then s.decError else decDataChar c v s)

/-- `DEC.END` (R168): the staged bytes if the message is valid, then `EOM`; idle. -/
def execDecEnd (s : State) : Answer :=
  .next (s.decFinish ((if s.dec.valid then s.dec.stage.map dataWord else []) ++ [eom]))

end Sys2Proof.Machine
end

