-- ==== Sys2Proof/Machine/Encoder.lean ====
section
/-! DEFINITION. The meanings of `ENC.DATA` and `ENC.END` (spec/41_encoder.md R133, R134). Each is the engine's whole
atomic step (spec/20_memory.md R56): it takes its word from the head of `ENC_IQ` as well (log 18). -/

namespace Sys2Proof.Machine

/-- `ENC.DATA b` (R133). `ENC_CNT` = 3 has no case there and no run reaches it (R24; log 10). -/
def execEncData (b : Byte) (s : State) : Answer :=
  if s.enc.cnt = 0 then
    .next (s.takeEnc.setEnc { cnt := 1, hold := holdOf b 0x00 })
  else if s.enc.cnt = 1 then
    .next (s.takeEnc.setEnc { cnt := 2, hold := holdOf (holdFirst s.enc.hold) b })
  else if s.enc.cnt = 2 then
    .next ((s.takeEnc.emitEnc ((groupChars (groupOfHold s.enc.hold b)).map dataWord)).setEnc EncState.idle)
  else .fault .encCountThree

/-- `ENC.END` (R134). -/
def execEncEnd (s : State) : Answer :=
  if s.enc.cnt = 0 then
    .next ((s.takeEnc.emitEnc [eom]).setEnc EncState.idle)
  else if s.enc.cnt = 1 then
    .next ((s.takeEnc.emitEnc
      ((tailChars1 (groupOfBytes (holdFirst s.enc.hold) 0x00 0x00)).map dataWord ++ [eom])).setEnc EncState.idle)
  else if s.enc.cnt = 2 then
    .next ((s.takeEnc.emitEnc ((tailChars2 (groupOfHold s.enc.hold 0x00)).map dataWord ++ [eom])).setEnc EncState.idle)
  else .fault .encCountThree

end Sys2Proof.Machine
end

