-- ==== Sys2Proof/Machine/Dispatch.lean ====
section
/-! DEFINITION. The dispatch: one arm per instruction of spec/opcode_table.json. -/

namespace Sys2Proof.Machine

def exec (i : Instr) (s : State) : Host.Outcome State Fault Refusal :=
  match i with
  | .encData b => Sys2Proof.Machine.execEncData b s
  | .encEnd => Sys2Proof.Machine.execEncEnd s
  | .decData c => Sys2Proof.Machine.execDecData c s
  | .decEnd => Sys2Proof.Machine.execDecEnd s

end Sys2Proof.Machine
end

