-- ==== Sys2Proof/Machine/Agents.lean ====
section
/-! DEFINITION. One turn of each of the four actors (spec/10_state.md R20), and how a word is placed for an engine to
run next. -/

namespace Sys2Proof.Machine

/-- An engine's turn (R56, R206): a reserved head word is `raise Fault(RESERVED_WORD)`; an instruction is executed; an
engine with no enabled step waits, its state kept (R204, R216; log 4). -/
def engineTurn (e : Engine) (s : State) : Answer :=
  match fetch e s with
  | .waits => .next s
  | .reserved w => .next (s.raiseFault e { reason := .reservedWord, word := w, stageLen := none })
  | .instr i => exec i s

/-- "If reset is asserted, no engine step takes place; reset acts" (R206), and no host step either (R230). -/
def unlessReset (f : State → Answer) (s : State) : Answer := if s.resetIn then .next s.resetAct else f s

/-- One turn (R20). -/
def takeTurn (t : Turn) (s : State) : Answer :=
  match t with
  | .enc => unlessReset (engineTurn .enc) s
  | .dec => unlessReset (engineTurn .dec) s
  | .pushEnc w => unlessReset (fun s => .next (s.pushEnc w)) s
  | .pushDec w => unlessReset (fun s => .next (s.pushDec w)) s
  | .popEnc => unlessReset popEncTurn s
  | .popDec => unlessReset popDecTurn s
  | .reset asserted => .next (s.driveReset asserted)

/-- The turn of an engine. -/
def engineOwnTurn (e : Engine) : Turn :=
  match e with
  | .enc => .enc
  | .dec => .dec

/-- Place a word where engine `e` takes its next one, and let the very next turn be that engine's: the word goes to the
head of its input queue, reset is released, and the engine has no fault (R56, R204, R230). It stands for a host that
has pushed the word (log 12). -/
def State.placeWord (e : Engine) (w : PortWord) (s : State) : State :=
  match e with
  | .enc => { s with encIq := w :: s.encIq, encFaults := [], resetIn := false, schedule := .enc :: s.schedule }
  | .dec => { s with decIq := w :: s.decIq, decFaults := [], resetIn := false, schedule := .dec :: s.schedule }

/-- The turns of a list, one after the other, stopping at the first fault or refusal. -/
def runTurns : List Turn → State → Answer
  | [], s => .next s
  | t :: ts, s =>
    match takeTurn t s with
    | .next s' => runTurns ts s'
    | .fault r => .fault r
    | .refused r => .refused r

/-- The instructions of a list, one after the other, stopping at the first fault or refusal. -/
def runInstrs : List Instr → State → Answer
  | [], s => .next s
  | i :: is, s =>
    match exec i s with
    | .next s' => runInstrs is s'
    | .fault r => .fault r
    | .refused r => .refused r

end Sys2Proof.Machine
end

