-- ==== Sys2Proof/Machine/Step.lean ====
section
/-! DEFINITION. One step of the model: the next turn of the schedule (spec/10_state.md R20: "Any interleaving of `ENC`,
`DEC` and `HOST` steps is a legal run"; log 3). -/

namespace Sys2Proof.Machine

/-- The head turn of the schedule is taken off it and taken; with no turn to come every actor waits (R216). -/
def step (s : State) : Host.Outcome State Fault Refusal :=
  match s.schedule with
  | [] => .next s
  | t :: rest => takeTurn t { s with schedule := rest }

/-- The word `w`, numbered as spec/opcode_table.json numbers it with the port in bit 10 (log 11), placed so that the
very next step runs it (log 12). -/
def State.withFetchWord (s : State) (nbits w : Nat) : State :=
  s.placeWord (portOfTableWord (w % 2 ^ nbits)) (BitVec.ofNat 10 (w % 2 ^ nbits))

end Sys2Proof.Machine
end

