-- ==== Sys2Proof/Machine/Reference.lean ====
section
/-! DEFINITION. The message-level reference functions `ENCODE` (spec/41_encoder.md R130) and `DECODE`
(spec/42_decoder.md R160), line by line as the spec writes them. They are normative (spec/00_scope.md R14); the engines
do not call them, and that the engines agree with them is stated, not built in (R140, R175). -/

namespace Sys2Proof.Machine

/-- The characters of the full group `k` of a message (R130). -/
def encodeGroup (b : List Byte) (k : Nat) : List Byte :=
  groupChars (groupOfBytes (b.getD (3 * k) 0) (b.getD (3 * k + 1) 0) (b.getD (3 * k + 2) 0))

/-- The tail of a message: nothing, or 1 or 2 bytes with their padding (R130). -/
def encodeTail (b : List Byte) : List Byte :=
  let n := b.length
  if n % 3 = 0 then []
  else if n % 3 = 1 then tailChars1 (groupOfBytes (b.getD (n - 1) 0) 0x00 0x00)
  else tailChars2 (groupOfBytes (b.getD (n - 2) 0) (b.getD (n - 1) 0) 0x00)

/-- `ENCODE(b)` (R130). -/
def encodeRef (b : List Byte) : List Byte := (List.range (b.length / 3)).flatMap (encodeGroup b) ++ encodeTail b

/-- The number of `'='` codes at the end of a text: the longest suffix of `'='` (R160). -/
def padRun (t : List Byte) : Nat := (t.reverse.takeWhile (fun c => c == padChar)).length

/-- The 24-bit value of group `k` of a text, a pad counting as 0 (R160). -/
def decodeGroupValue (t : List Byte) (k : Nat) : Group :=
  groupOfSextets (sextetOf (t.getD (4 * k) 0)) (sextetOf (t.getD (4 * k + 1) 0)) (sextetOf (t.getD (4 * k + 2) 0))
    (sextetOf (t.getD (4 * k + 3) 0))

/-- The bytes of group `k` of a text with `p` trailing pads (R160). -/
def decodeGroup (t : List Byte) (p k : Nat) : List Byte :=
  let g := decodeGroupValue t k
  if k + 1 < t.length / 4 ∨ p = 0 then groupBytes3 g
  else if p = 1 then groupBytes2 g
  else groupBytes1 g

/-- The conditions under which a text that is not empty gets the sentinel (R160, R161). -/
def malformed (t : List Byte) : Bool :=
  let n := t.length
  let p := padRun t
  decide (n % 4 ≠ 0) || t.any (fun c => classify c == .invalid) || decide (2 < p) ||
    (t.take (n - p)).any (fun c => classify c == .pad)

/-- `DECODE(t)` (R160); the empty list is the sentinel of a malformed text, and the result of the empty one. -/
def decodeRef (t : List Byte) : List Byte :=
  if t = [] then []
  else if malformed t then []
  else (List.range (t.length / 4)).flatMap (decodeGroup t (padRun t))

end Sys2Proof.Machine
end

