-- ==== Sys2Proof/Safety.lean ====
section
/-! DEFINITION. The terms claims are made in: the invariants of spec/10_state.md R39, the words an output queue may hold
(spec/30_encoding.md R74, R75), the host's duties (spec/70_reset_and_hazards.md R236), the end of a run (R237), and the
words and turns of whole messages (R77). -/

namespace Sys2Proof.Machine

/-! ### Runs -/

/-- `k` steps of the machine, stopping at the first fault or refusal. -/
def runSteps : Nat → State → Answer
  | 0, s => .next s
  | k + 1, s =>
    match step s with
    | .next s' => runSteps k s'
    | .fault r => .fault r
    | .refused r => .refused r

/-! ### The invariants of R39 -/

/-- R39.1 and R39.2: `ENC_CNT` is at most 2, and a byte slot not yet filled holds 0. -/
abbrev EncState.Inv (e : EncState) : Prop :=
  e.cnt ≠ 3 ∧ (e.cnt = 0 → e.hold = 0) ∧ (e.cnt = 1 → holdSecond e.hold = 0)

/-- R39.3 to R39.7 on the decoder's fields: the pad bits fit the position, the error latch clears all else, a slot of
`DEC_ACC` not yet filled holds 0, and the staging buffer holds whole groups of 3 until a padded group closes it. -/
abbrev DecState.Inv (d : DecState) : Prop :=
  (d.pad3 = true → d.pos = 3) ∧
  (d.closed = true → d.pos = 0 ∧ d.pad3 = false) ∧
  (d.err = true → d.pos = 0 ∧ d.acc = 0 ∧ d.pad3 = false ∧ d.closed = false ∧ d.stage = []) ∧
  (d.pos = 0 → d.acc = 0) ∧
  (d.pos = 1 → d.acc.extractLsb' 0 12 = 0) ∧
  (d.pos = 2 → d.acc.extractLsb' 0 6 = 0) ∧
  (d.pad3 = true → d.acc.extractLsb' 0 6 = 0) ∧
  (d.err = false → d.closed = false → d.stage.length % 3 = 0) ∧
  (d.err = false → d.closed = true → d.stage.length % 3 ≠ 0)

/-- The invariant of the block: R39, the bound of R30 on the staging buffer, and at most one entry of `FAULTS` for each
engine (R204). -/
abbrev State.Inv (s : State) : Prop :=
  s.enc.Inv ∧ s.dec.Inv ∧ s.stageFits 0 = true ∧ s.encFaults.length ≤ 1 ∧ s.decFaults.length ≤ 1

/-! ### The words an output queue may hold -/

/-- One of the 64 alphabet character codes or `'='` (R75). -/
def isOutputChar (c : Byte) : Bool := fwdRom.contains c || c == padChar

/-- A word the encoder may emit: `EOM`, or the data word of an alphabet character or `'='` (R74, R75). -/
def encWordOk (w : PortWord) : Bool := w == eom || (w == dataWord (payload w) && isOutputChar (payload w))

/-- A word the decoder may emit: `EOM`, or a data word of any byte (R74, R76). -/
def decWordOk (w : PortWord) : Bool := w == eom || w == dataWord (payload w)

/-- Every word the encoder has put out, popped or not, is one it may emit; the same for the decoder. -/
abbrev State.OutputsOk (s : State) : Prop :=
  (∀ w ∈ s.encPopped ++ s.encOq, encWordOk w = true) ∧ (∀ w ∈ s.decPopped ++ s.decOq, decWordOk w = true)

/-! ### The host's duties and the end of a run -/

/-- `FAULTS` is empty: the premise of a claim about a run (R38, R204). -/
abbrev State.FaultFree (s : State) : Prop := s.encFaults = [] ∧ s.decFaults = []

/-- A turn that keeps the first duty of R236: no push of a reserved word. -/
def Turn.dutiful : Turn → Bool
  | .enc => true
  | .dec => true
  | .pushEnc w => inputWordWf w
  | .pushDec w => inputWordWf w
  | .popEnc => true
  | .popDec => true
  | .reset _ => true

/-- No reserved word is queued and none will be pushed (R236). -/
abbrev State.Dutiful (s : State) : Prop :=
  (∀ w ∈ s.encIq, inputWordWf w = true) ∧ (∀ w ∈ s.decIq, inputWordWf w = true) ∧
  (∀ t ∈ s.schedule, t.dutiful = true)

/-- A decoder message of `n` characters is within `4 * (DEC_STAGE_CAP div 3)`, the second duty of R236. -/
def State.messageFits (s : State) (n : Nat) : Bool :=
  match s.cfg.decStageCap with
  | none => true
  | some cap => decide (n ≤ 4 * (cap / 3))

/-- Every input queue is empty, so no engine step is enabled (R237). -/
abbrev State.Quiescent (s : State) : Prop := s.encIq = [] ∧ s.decIq = []

/-- How many words of a queue end a message: `END` words of an input queue, `EOM` words of an output queue (R77). -/
def messageEnds (ws : List PortWord) : Nat := ws.countP endsMessage

/-- A run is complete (R237) for `encEnded` encoder messages and `decEnded` decoder messages the host ended: quiescent,
`FAULTS` empty, and one `EOM` for each on its output queue or popped. -/
abbrev State.Complete (s : State) (encEnded decEnded : Nat) : Prop :=
  s.Quiescent ∧ s.FaultFree ∧ messageEnds (s.encPopped ++ s.encOq) = encEnded ∧
  messageEnds (s.decPopped ++ s.decOq) = decEnded

/-! ### Whole messages -/

/-- The words of one message: its `DATA` words, then `END` (R77). -/
def messageWords (xs : List Byte) : List PortWord := xs.map dataWord ++ [endWord]

/-- The words of one result: its `DATA` words, then `EOM` (R77). -/
def resultWords (xs : List Byte) : List PortWord := xs.map dataWord ++ [eom]

/-- The instructions of one encoder message (R140). -/
def encMessage (b : List Byte) : List Instr := b.map Instr.encData ++ [Instr.encEnd]

/-- The instructions of one decoder message (R175). -/
def decMessage (t : List Byte) : List Instr := t.map Instr.decData ++ [Instr.decEnd]

/-- The turns in which the host pushes an encoder message and `ENC` takes every word of it (R239: n + 1 steps). -/
def encMessageTurns (b : List Byte) : List Turn :=
  (messageWords b).map Turn.pushEnc ++ List.replicate (b.length + 1) Turn.enc

/-- The turns in which the host pushes a decoder message and `DEC` takes every word of it (R239: n + 1 steps). -/
def decMessageTurns (t : List Byte) : List Turn :=
  (messageWords t).map Turn.pushDec ++ List.replicate (t.length + 1) Turn.dec

/-- The encoder's share of the state: what an `ENC` step reads and writes (R20, R61). -/
abbrev State.SameEncoder (s t : State) : Prop :=
  s.enc = t.enc ∧ s.encIq = t.encIq ∧ s.encOq = t.encOq ∧ s.encFaults = t.encFaults

/-- The decoder's share of the state: what a `DEC` step reads and writes (R20, R61). -/
abbrev State.SameDecoder (s t : State) : Prop :=
  s.dec = t.dec ∧ s.decIq = t.decIq ∧ s.decOq = t.decOq ∧ s.decFaults = t.decFaults

/-- The rest of the state: the parameters, the reset input and the model's own fields. -/
abbrev State.SameOutside (s t : State) : Prop :=
  s.cfg = t.cfg ∧ s.resetIn = t.resetIn ∧ s.schedule = t.schedule ∧ s.encPopped = t.encPopped ∧
  s.decPopped = t.decPopped

end Sys2Proof.Machine
end

