-- ==== Sys2Proof/Certificates/Slice0/Obligations.lean ====
section
/-! DEFINITION. The statements for the provers. Each docstring names the rule of spec/ it formalises. -/

open Sys2Proof Sys2Proof.Machine

/-! ### Encoding -/

/-- R78: `decode_iw` on both ports, by `KIND`; total on every 10-bit word. The rows' mask 0x300 with the matches 0x000 and
0x100 says the same of `KIND`. -/
def Obligations.DecodeIwFollowsKind : Prop :=
  ∀ w : PortWord,
    (w.extractLsb' 8 2 = 0b00#2 →
      decodeIw .enc w = .instr (.encData (w.extractLsb' 0 8)) ∧
      decodeIw .dec w = .instr (.decData (w.extractLsb' 0 8))) ∧
    (w.extractLsb' 8 2 = 0b01#2 → decodeIw .enc w = .instr .encEnd ∧ decodeIw .dec w = .instr .decEnd) ∧
    (w.extractLsb' 8 2 = 0b10#2 ∨ w.extractLsb' 8 2 = 0b11#2 →
      decodeIw .enc w = .reserved w ∧ decodeIw .dec w = .reserved w) ∧
    (w &&& 0x300#10 = 0x000#10 ↔ w.extractLsb' 8 2 = 0b00#2) ∧
    (w &&& 0x300#10 = 0x100#10 ↔ w.extractLsb' 8 2 = 0b01#2)

/-- R81: every payload of an `END` word selects the same instruction, and the assembler writes 0x00. -/
def Obligations.EndPayloadIsIgnored : Prop :=
  (∀ x : Byte, decodeIw .enc (0b01#2 ++ x) = .instr .encEnd ∧ decodeIw .dec (0b01#2 ++ x) = .instr .decEnd) ∧
  encode .encEnd = 0x100#10 ∧ encode .decEnd = 0x100#10

/-- Decoding and encoding agree both ways: an encoded instruction decodes to itself on its own port, and a word that
decodes to an instruction is that instruction's word, but for the payload of an `END` (R71, R72, R81). -/
def Obligations.EncodeAndDecodeAgree : Prop :=
  (∀ i : Instr, decodeIw i.engine (encode i) = .instr i) ∧
  (∀ (p : Engine) (w : PortWord) (i : Instr), decodeIw p w = .instr i →
    i.engine = p ∧ (encode i = w ∨ (w.extractLsb' 8 2 = 0b01#2 ∧ encode i = 0x100#10)))

/-- R83: the word of each assembler line, with its port. That `ENC.DATA` takes a quoted character is the model's choice
(log 19). -/
def Obligations.AssemblerLineWords : Prop :=
  (∀ n : Nat, n < 256 →
    (AsmLine.encData (.number n)).assemble = some [(.enc, 0b00#2 ++ BitVec.ofNat 8 n)] ∧
    (AsmLine.decData (.number n)).assemble = some [(.dec, 0b00#2 ++ BitVec.ofNat 8 n)]) ∧
  (∀ c : Char, c.toNat < 128 →
    (AsmLine.encData (.quoted c)).assemble = some [(.enc, 0b00#2 ++ BitVec.ofNat 8 c.toNat)] ∧
    (AsmLine.decData (.quoted c)).assemble = some [(.dec, 0b00#2 ++ BitVec.ofNat 8 c.toNat)]) ∧
  AsmLine.encEnd.assemble = some [(.enc, 0x100#10)] ∧
  AsmLine.decEnd.assemble = some [(.dec, 0x100#10)]

/-- R84: the expansions of the pseudo-instructions; a lone `END` is not allowed. -/
def Obligations.PseudoInstructionExpansions : Prop :=
  (∀ bs : List Nat, (∀ n ∈ bs, n < 256) →
    (AsmLine.encMsg bs).expand = some (bs.map (fun n => Instr.encData (BitVec.ofNat 8 n)) ++ [Instr.encEnd])) ∧
  (AsmLine.encMsg []).expand = some [Instr.encEnd] ∧
  (∀ text : List Char, (∀ c ∈ text, c.toNat < 128) →
    (AsmLine.encStr text).expand = (AsmLine.encMsg (text.map Char.toNat)).expand ∧
    (AsmLine.decMsg text).expand =
      some (text.map (fun c => Instr.decData (BitVec.ofNat 8 c.toNat)) ++ [Instr.decEnd])) ∧
  (AsmLine.decMsg []).expand = some [Instr.decEnd] ∧
  AsmLine.bareEnd.expand = none

/-- Every line that may be written is assembled, and its words decode, each on its port, to the instructions the line
stands for, in order. -/
def Obligations.AssembledLineDecodesToItsExpansion : Prop :=
  ∀ l : AsmLine, l.wf = true →
    ∃ is ws, l.expand = some is ∧ l.assemble = some ws ∧
      ws.map (fun pw => decodeIw pw.1 pw.2) = is.map Decoded.instr

/-- Words written out bit by bit from R71 and R72, one or two of each family, decode to the instruction they stand
for. -/
def Obligations.SampleWordsDecode : Prop :=
  decodeIw .enc 0b0001101000#10 = .instr (.encData 0x68) ∧
  decodeIw .enc 0b0011111111#10 = .instr (.encData 0xFF) ∧
  decodeIw .enc 0b0100000000#10 = .instr .encEnd ∧
  decodeIw .dec 0b0000111101#10 = .instr (.decData 0x3D) ∧
  decodeIw .dec 0b0010000000#10 = .instr (.decData 0x80) ∧
  decodeIw .dec 0b0110100101#10 = .instr .decEnd ∧
  decodeIw .enc 0b1000000000#10 = .reserved 0x200 ∧
  decodeIw .dec 0b1111111111#10 = .reserved 0x3FF

/-! ### The alphabet ROMs and the bits of a group -/

/-- R100: the 64 entries of `FWD`. -/
def Obligations.ForwardRomContents : Prop :=
  fwdRom.length = 64 ∧
  ∀ s : Sextet, fwd s =
    (if s.toNat < 26 then BitVec.ofNat 8 (0x41 + s.toNat)
     else if s.toNat < 52 then BitVec.ofNat 8 (0x61 + (s.toNat - 26))
     else if s.toNat < 62 then BitVec.ofNat 8 (0x30 + (s.toNat - 52))
     else if s.toNat = 62 then 0x2B#8
     else 0x2F#8)

/-- R102: `FWD` is one-to-one and never gives the pad character. -/
def Obligations.ForwardRomIsOneToOne : Prop :=
  (∀ s t : Sextet, fwd s = fwd t → s = t) ∧ ∀ s : Sextet, fwd s ≠ 0x3D#8

/-- R103: the contents of `INV` in terms of `FWD`. -/
def Obligations.InverseRomContents : Prop :=
  ∀ c : Byte,
    (∀ i : Sextet, c = fwd i → inv c = i.zeroExtend 8) ∧
    (c = 0x3D#8 → inv c = 0x40#8) ∧
    ((∀ i : Sextet, c ≠ fwd i) → c ≠ 0x3D#8 → inv c = 0xFF#8)

/-- R104: `INV` written out by code ranges; exactly 65 codes are not invalid. -/
def Obligations.InverseRomByCodeRanges : Prop :=
  (∀ c : Byte, inv c =
    (if c.toNat = 0x2B then 0x3E#8
     else if c.toNat = 0x2F then 0x3F#8
     else if 0x30 ≤ c.toNat ∧ c.toNat ≤ 0x39 then c + 4#8
     else if c.toNat = 0x3D then 0x40#8
     else if 0x41 ≤ c.toNat ∧ c.toNat ≤ 0x5A then c - 0x41#8
     else if 0x61 ≤ c.toNat ∧ c.toNat ≤ 0x7A then c - 0x47#8
     else 0xFF#8)) ∧
  (List.range 256).countP (fun n => classify (BitVec.ofNat 8 n) != .invalid) = 65

/-- R105: `classify` reads `INV` as one of three classes, on every code. -/
def Obligations.ClassifyReadsInverseRom : Prop :=
  ∀ c : Byte,
    (inv c ≤ 0x3F#8 ∧ classify c = .data ((inv c).extractLsb' 0 6)) ∨
    (inv c = 0x40#8 ∧ classify c = .pad) ∨
    (inv c = 0xFF#8 ∧ classify c = .invalid)

/-- R106: the two ROMs are inverse to each other on the alphabet. -/
def Obligations.RomsAreInverse : Prop :=
  (∀ s : Sextet, classify (fwd s) = .data s) ∧
  (∀ (c : Byte) (s : Sextet), classify c = .data s → fwd s = c)

/-- R132: the four sextets of a group in terms of its bytes, and those of the two tails. -/
def Obligations.SextetsOfAGroup : Prop :=
  ∀ b0 b1 b2 : Byte,
    sextet0 (groupOfBytes b0 b1 b2) = b0.extractLsb' 2 6 ∧
    sextet1 (groupOfBytes b0 b1 b2) = b0.extractLsb' 0 2 ++ b1.extractLsb' 4 4 ∧
    sextet2 (groupOfBytes b0 b1 b2) = b1.extractLsb' 0 4 ++ b2.extractLsb' 6 2 ∧
    sextet3 (groupOfBytes b0 b1 b2) = b2.extractLsb' 0 6 ∧
    sextet0 (groupOfBytes b0 0 0) = b0.extractLsb' 2 6 ∧
    sextet1 (groupOfBytes b0 0 0) = b0.extractLsb' 0 2 ++ 0b0000#4 ∧
    sextet0 (groupOfBytes b0 b1 0) = b0.extractLsb' 2 6 ∧
    sextet1 (groupOfBytes b0 b1 0) = b0.extractLsb' 0 2 ++ b1.extractLsb' 4 4 ∧
    sextet2 (groupOfBytes b0 b1 0) = b1.extractLsb' 0 4 ++ 0b00#2

/-- R163: the bytes of a group of 4, 3 or 2 data characters in terms of its sextets. -/
def Obligations.BytesOfAGroup : Prop :=
  ∀ s0 s1 s2 s3 : Sextet,
    groupBytes3 (groupOfSextets s0 s1 s2 s3) =
      [s0 ++ s1.extractLsb' 4 2, s1.extractLsb' 0 4 ++ s2.extractLsb' 2 4, s2.extractLsb' 0 2 ++ s3] ∧
    groupBytes2 (groupOfSextets s0 s1 s2 0) =
      [s0 ++ s1.extractLsb' 4 2, s1.extractLsb' 0 4 ++ s2.extractLsb' 2 4] ∧
    groupBytes1 (groupOfSextets s0 s1 0 0) = [s0 ++ s1.extractLsb' 4 2]

/-! ### The reference functions -/

/-- R131: the length of `ENCODE(b)`. -/
def Obligations.EncodeLength : Prop :=
  ∀ b : List Byte,
    (encodeRef b).length = 4 * ((b.length + 2) / 3) ∧ (b ≠ [] → 0 < (encodeRef b).length)

/-- R162: the length of `DECODE(t)` for a valid `t`, and its bound for every `t`. -/
def Obligations.DecodeLength : Prop :=
  ∀ t : List Byte,
    (malformed t = false → (decodeRef t).length = 3 * (t.length / 4) - padRun t) ∧
    (decodeRef t).length ≤ 3 * (t.length / 4)

/-- R137: `ENCODE(b)` is data characters, then two, one or no `'='` by the length modulo 3, and `'='` nowhere else. -/
def Obligations.EncodePadding : Prop :=
  ∀ b : List Byte, ∃ cs : List Sextet,
    encodeRef b = cs.map fwd ++
      List.replicate (if b.length % 3 = 1 then 2 else if b.length % 3 = 2 then 1 else 0) 0x3D#8 ∧
    ∀ c ∈ cs.map fwd, c ≠ 0x3D#8

/-- R161: each condition gives the sentinel: an incomplete group, a code outside the alphabet and the pad, more than two
pads at the end, a pad before the run of pads at the end; and so does the empty text. In the source's words: a pad in
position 1 or 2 of a group, a pad before a character that is no pad. -/
def Obligations.InvalidTextGivesSentinel : Prop :=
  ∀ t : List Byte,
    (t = [] → decodeRef t = []) ∧
    (t.length % 4 ≠ 0 → decodeRef t = []) ∧
    (∀ c ∈ t, classify c = .invalid → decodeRef t = []) ∧
    (2 < padRun t → decodeRef t = []) ∧
    (∀ i, i + padRun t < t.length → classify (t.getD i 0) = .pad → decodeRef t = []) ∧
    (∀ i, i < t.length → i % 4 < 2 → classify (t.getD i 0) = .pad → decodeRef t = []) ∧
    (∀ i j, i < j → j < t.length → classify (t.getD i 0) = .pad → classify (t.getD j 0) ≠ .pad → decodeRef t = [])

/-- R164: the low bits the padding discards are not checked. -/
def Obligations.DroppedBitsAreNotChecked : Prop :=
  (∀ a b : Sextet, decodeRef [fwd a, fwd b, 0x3D, 0x3D] = [a ++ b.extractLsb' 4 2]) ∧
  (∀ a b v : Sextet, decodeRef [fwd a, fwd b, fwd v, 0x3D] =
    [a ++ b.extractLsb' 4 2, b.extractLsb' 0 4 ++ v.extractLsb' 2 4]) ∧
  decodeRef [0x51, 0x52, 0x3D, 0x3D] = [0x41] ∧ decodeRef [0x51, 0x51, 0x3D, 0x3D] = [0x41]

/-- R176: for every byte list `b`, `DECODE(ENCODE(b)) = b`. -/
def Obligations.DecodeOfEncodeIsIdentity : Prop :=
  ∀ b : List Byte, decodeRef (encodeRef b) = b

/-! ### The instructions: results, completion and frames -/

/-- R133: what `ENC.DATA b` does, by `ENC_CNT`; everything not written is unchanged. -/
def Obligations.EncDataResult : Prop :=
  ∀ (b : Byte) (s : State),
    (s.enc.cnt = 0 → exec (.encData b) s =
      .next { s with encIq := s.encIq.tail, enc := { cnt := 1, hold := b ++ 0x00#8 } }) ∧
    (s.enc.cnt = 1 → exec (.encData b) s =
      .next { s with encIq := s.encIq.tail, enc := { cnt := 2, hold := s.enc.hold.extractLsb' 8 8 ++ b } }) ∧
    (s.enc.cnt = 2 → exec (.encData b) s =
      .next { s with
        encIq := s.encIq.tail
        encOq := s.encOq ++
          [0b00#2 ++ map6 ((s.enc.hold ++ b).extractLsb' 18 6), 0b00#2 ++ map6 ((s.enc.hold ++ b).extractLsb' 12 6),
           0b00#2 ++ map6 ((s.enc.hold ++ b).extractLsb' 6 6), 0b00#2 ++ map6 ((s.enc.hold ++ b).extractLsb' 0 6)]
        enc := { cnt := 0, hold := 0x0000 } })

/-- R134: what `ENC.END` does, by `ENC_CNT`; everything not written is unchanged. -/
def Obligations.EncEndResult : Prop :=
  ∀ s : State,
    (s.enc.cnt = 0 → exec .encEnd s =
      .next { s with encIq := s.encIq.tail, encOq := s.encOq ++ [0x100#10], enc := { cnt := 0, hold := 0x0000 } }) ∧
    (s.enc.cnt = 1 → exec .encEnd s =
      .next { s with
        encIq := s.encIq.tail
        encOq := s.encOq ++
          [0b00#2 ++ map6 ((s.enc.hold.extractLsb' 8 8 ++ 0x0000#16).extractLsb' 18 6),
           0b00#2 ++ map6 ((s.enc.hold.extractLsb' 8 8 ++ 0x0000#16).extractLsb' 12 6), 0x03D#10, 0x03D#10, 0x100#10]
        enc := { cnt := 0, hold := 0x0000 } }) ∧
    (s.enc.cnt = 2 → exec .encEnd s =
      .next { s with
        encIq := s.encIq.tail
        encOq := s.encOq ++
          [0b00#2 ++ map6 ((s.enc.hold ++ 0x00#8).extractLsb' 18 6),
           0b00#2 ++ map6 ((s.enc.hold ++ 0x00#8).extractLsb' 12 6),
           0b00#2 ++ map6 ((s.enc.hold ++ 0x00#8).extractLsb' 6 6), 0x03D#10, 0x100#10]
        enc := { cnt := 0, hold := 0x0000 } })

/-- R166: what `DEC.DATA c` does, branch by branch of its pseudocode; everything not written is unchanged. At each of the
three group ends `STAGE` is stated on `DEC_STAGE_CAP` itself: unbounded, or at least the length it would reach; or
passed by it, and then the fault is recorded and nothing else. -/
def Obligations.DecDataResult : Prop :=
  ∀ (c : Byte) (s : State),
    (s.dec.err = true → exec (.decData c) s = .next { s with decIq := s.decIq.tail }) ∧
    (s.dec.err = false → classify c = .invalid ∨ s.dec.closed = true → exec (.decData c) s =
      .next { s with
        decIq := s.decIq.tail
        dec := { pos := 0, acc := 0, pad3 := false, closed := false, err := true, stage := [] } }) ∧
    (s.dec.err = false → s.dec.closed = false →
      (classify c = .pad →
        (s.dec.pos = 0 ∨ s.dec.pos = 1 → exec (.decData c) s =
          .next { s with
            decIq := s.decIq.tail
            dec := { pos := 0, acc := 0, pad3 := false, closed := false, err := true, stage := [] } }) ∧
        (s.dec.pos = 2 → exec (.decData c) s =
          .next { s with decIq := s.decIq.tail, dec := { s.dec with pad3 := true, pos := 3 } }) ∧
        (∀ bytes, s.dec.pos = 3 →
          bytes = (if s.dec.pad3 = true then [(s.dec.acc ++ 0b000000#6).extractLsb' 16 8]
            else [(s.dec.acc ++ 0b000000#6).extractLsb' 16 8, (s.dec.acc ++ 0b000000#6).extractLsb' 8 8]) →
          (s.cfg.decStageCap = none ∨ (∃ cap, s.cfg.decStageCap = some cap ∧ s.dec.stage.length + bytes.length ≤ cap) →
            exec (.decData c) s =
            .next { s with
              decIq := s.decIq.tail
              dec := { s.dec with
                stage := s.dec.stage ++ bytes, closed := true, pad3 := false, acc := 0, pos := 0 } }) ∧
          (∀ cap, s.cfg.decStageCap = some cap → cap < s.dec.stage.length + bytes.length →
            exec (.decData c) s =
            .next { s with
              decFaults := addFault s.decFaults
                { reason := .stageOverflow, word := 0b00#2 ++ c, stageLen := some s.dec.stage.length } }))) ∧
      (∀ v : Sextet, classify c = .data v →
        (s.dec.pad3 = true → exec (.decData c) s =
          .next { s with
            decIq := s.decIq.tail
            dec := { pos := 0, acc := 0, pad3 := false, closed := false, err := true, stage := [] } }) ∧
        (s.dec.pad3 = false → s.dec.pos = 0 → exec (.decData c) s =
          .next { s with decIq := s.decIq.tail, dec := { s.dec with acc := v ++ 0#12, pos := 1 } }) ∧
        (s.dec.pad3 = false → s.dec.pos = 1 → exec (.decData c) s =
          .next { s with
            decIq := s.decIq.tail
            dec := { s.dec with acc := s.dec.acc.extractLsb' 12 6 ++ v ++ 0#6, pos := 2 } }) ∧
        (s.dec.pad3 = false → s.dec.pos = 2 → exec (.decData c) s =
          .next { s with
            decIq := s.decIq.tail
            dec := { s.dec with acc := s.dec.acc.extractLsb' 6 12 ++ v, pos := 3 } }) ∧
        (s.dec.pad3 = false → s.dec.pos = 3 →
          (s.cfg.decStageCap = none ∨ (∃ cap, s.cfg.decStageCap = some cap ∧ s.dec.stage.length + 3 ≤ cap) →
            exec (.decData c) s =
            .next { s with
              decIq := s.decIq.tail
              dec := { s.dec with
                stage := s.dec.stage ++ [(s.dec.acc ++ v).extractLsb' 16 8, (s.dec.acc ++ v).extractLsb' 8 8,
                  (s.dec.acc ++ v).extractLsb' 0 8]
                acc := 0, pos := 0 } }) ∧
          (∀ cap, s.cfg.decStageCap = some cap → cap < s.dec.stage.length + 3 →
            exec (.decData c) s =
            .next { s with
              decFaults := addFault s.decFaults
                { reason := .stageOverflow, word := 0b00#2 ++ c, stageLen := some s.dec.stage.length } }))))

/-- R167: the invalid conditions are exactly those listed: in a state that keeps R39, a `DEC.DATA` with the latch clear
does what `ERROR` does if and only if its code is invalid, comes after a padded group, is a pad in position 1 or 2, or
is a data character in position 4 after a pad in position 3; and a `DEC.END` with `DEC_POS` not 0 emits no data. -/
def Obligations.ErrorPathConditions : Prop :=
  (∀ (c : Byte) (s : State), s.dec.Inv → s.dec.err = false →
    ((classify c = .invalid ∨ s.dec.closed = true ∨
      (classify c = .pad ∧ (s.dec.pos = 0 ∨ s.dec.pos = 1)) ∨
      ((∃ v, classify c = .data v) ∧ s.dec.pos = 3 ∧ s.dec.pad3 = true)) ↔
    exec (.decData c) s =
      .next { s with
        decIq := s.decIq.tail
        dec := { pos := 0, acc := 0, pad3 := false, closed := false, err := true, stage := [] } })) ∧
  (∀ s : State, s.dec.pos ≠ 0 → exec .decEnd s =
    .next { s with
      decIq := s.decIq.tail
      decOq := s.decOq ++ [0x100#10]
      dec := { pos := 0, acc := 0, pad3 := false, closed := false, err := false, stage := [] } })

/-- R168: what `DEC.END` does: the staged bytes if no error is latched and the position is 0, then `EOM`; idle. -/
def Obligations.DecEndResult : Prop :=
  ∀ s : State,
    exec .decEnd s =
      .next { s with
        decIq := s.decIq.tail
        decOq := s.decOq ++
          (if s.dec.err = false ∧ s.dec.pos = 0 then s.dec.stage.map (fun x => 0b00#2 ++ x) else []) ++ [0x100#10]
        dec := { pos := 0, acc := 0, pad3 := false, closed := false, err := false, stage := [] } }

/-- R169: once the error is latched, any further characters of the message change nothing; they are only taken. -/
def Obligations.LatchedDecoderIgnoresCharacters : Prop :=
  ∀ (t : List Byte) (s : State), s.dec.err = true →
    runInstrs (t.map Instr.decData) s = .next { s with decIq := s.decIq.drop t.length }

/-- The frame of the encoder's instructions: the decoder's share, the parameters, the fault record and all the rest are
unchanged; one word is taken; output is only appended, and none while the group is not complete. -/
def Obligations.EncoderInstructionFrame : Prop :=
  (∀ (b : Byte) (s t : State), exec (.encData b) s = .next t →
    s.SameDecoder t ∧ s.SameOutside t ∧ t.encFaults = s.encFaults ∧ t.encIq = s.encIq.tail ∧
    s.encOq <+: t.encOq ∧ (s.enc.cnt ≠ 2 → t.encOq = s.encOq)) ∧
  (∀ s t : State, exec .encEnd s = .next t →
    s.SameDecoder t ∧ s.SameOutside t ∧ t.encFaults = s.encFaults ∧ t.encIq = s.encIq.tail ∧ s.encOq <+: t.encOq)

/-- The frame of the decoder's instructions: the encoder's share, the parameters and all the rest are unchanged; a
`DEC.DATA` appends no output, and either takes its word with the fault record unchanged, or adds the `STAGE_OVERFLOW`
entry of R203 to it and changes nothing else. -/
def Obligations.DecoderInstructionFrame : Prop :=
  (∀ (c : Byte) (s t : State), exec (.decData c) s = .next t →
    s.SameEncoder t ∧ s.SameOutside t ∧ t.decOq = s.decOq ∧
    ((t.decIq = s.decIq.tail ∧ t.decFaults = s.decFaults) ∨
      (t.decIq = s.decIq ∧ t.dec = s.dec ∧ t.decFaults = addFault s.decFaults
        { reason := .stageOverflow, word := 0b00#2 ++ c, stageLen := some s.dec.stage.length }))) ∧
  (∀ s t : State, exec .decEnd s = .next t →
    s.SameEncoder t ∧ s.SameOutside t ∧ t.decFaults = s.decFaults ∧ t.decIq = s.decIq.tail ∧ s.decOq <+: t.decOq)

/-- R173, R202: the decoder's instructions answer a next state in every state; the encoder's in every state with
`ENC_CNT` at most 2, and `ENC_CNT` = 3, which R24 says no run reaches, is the model's one fault (log 10). -/
def Obligations.InstructionsComplete : Prop :=
  (∀ (c : Byte) (s : State), ∃ t, exec (.decData c) s = .next t) ∧
  (∀ s : State, ∃ t, exec .decEnd s = .next t) ∧
  (∀ (b : Byte) (s : State), s.enc.cnt ≠ 3 → ∃ t, exec (.encData b) s = .next t) ∧
  (∀ s : State, s.enc.cnt ≠ 3 → ∃ t, exec .encEnd s = .next t) ∧
  (∀ (b : Byte) (s : State), s.enc.cnt = 3 →
    exec (.encData b) s = .fault .encCountThree ∧ exec .encEnd s = .fault .encCountThree)

/-! ### The agents' steps -/

/-- A step runs the decoded instruction: at an engine's turn, with reset released, no fault of that engine and a head
word that decodes to `i`, the step is `exec i` with that turn taken off the schedule (R56, R206). -/
def Obligations.StepRunsDecodedInstruction : Prop :=
  ∀ (e : Engine) (s : State) (w : PortWord) (q : List PortWord) (rest : List Turn) (i : Instr),
    s.resetIn = false → s.schedule = engineOwnTurn e :: rest → s.faultsOf e = [] → s.inputQueue e = w :: q →
    decodeIw e w = .instr i → step s = exec i { s with schedule := rest }

/-- R80: the step that takes a reserved word, with any payload, on either port is `raise Fault(RESERVED_WORD)`: the
fault is recorded and nothing else changes. -/
def Obligations.ReservedWordIsRecorded : Prop :=
  ∀ (s : State) (w : PortWord) (q : List PortWord) (rest : List Turn),
    s.resetIn = false → w.extractLsb' 8 2 = 0b10#2 ∨ w.extractLsb' 8 2 = 0b11#2 →
    (s.schedule = .enc :: rest → s.encFaults = [] → s.encIq = w :: q → step s =
      .next { s with schedule := rest, encFaults := [{ reason := .reservedWord, word := w, stageLen := none }] }) ∧
    (s.schedule = .dec :: rest → s.decFaults = [] → s.decIq = w :: q → step s =
      .next { s with schedule := rest, decFaults := [{ reason := .reservedWord, word := w, stageLen := none }] })

/-- R204: an engine with a fault takes no step; no step, reset included, removes a fault; the other engine is not
affected by it. -/
def Obligations.FaultedEngineTakesNoStep : Prop :=
  (∀ (e : Engine) (s : State), s.resetIn = false → s.faultsOf e ≠ [] → takeTurn (engineOwnTurn e) s = .next s) ∧
  (∀ s t : State, step s = .next t → ∀ (e : Engine) (f : FaultEntry), f ∈ s.faultsOf e → f ∈ t.faultsOf e) ∧
  (∀ (s t : State) (fs : List FaultEntry),
    (takeTurn .enc s = .next t → takeTurn .enc { s with decFaults := fs } = .next { t with decFaults := fs }) ∧
    (takeTurn .dec s = .next t → takeTurn .dec { s with encFaults := fs } = .next { t with encFaults := fs }))

/-- R216: an engine whose input queue is empty waits, its state kept; a word pushed on its queue lets it step again. -/
def Obligations.EngineWithEmptyQueueWaits : Prop :=
  ∀ (e : Engine) (s : State), s.resetIn = false → s.inputQueue e = [] →
    takeTurn (engineOwnTurn e) s = .next s ∧
    ∀ i : Instr, i.engine = e → s.faultsOf e = [] →
      (e = .enc → takeTurn (engineOwnTurn e) (s.pushEnc (encode i)) = exec i (s.pushEnc (encode i))) ∧
      (e = .dec → takeTurn (engineOwnTurn e) (s.pushDec (encode i)) = exec i (s.pushDec (encode i)))

/-- R55: the host's four steps. A pop returns the head word to the host and leaves the rest; a pop from an empty queue
is not a step (the model refuses it by name, log 5). -/
def Obligations.HostSteps : Prop :=
  ∀ s : State, s.resetIn = false →
    (∀ w, takeTurn (.pushEnc w) s = .next { s with encIq := s.encIq ++ [w] }) ∧
    (∀ w, takeTurn (.pushDec w) s = .next { s with decIq := s.decIq ++ [w] }) ∧
    (∀ w q, s.encOq = w :: q →
      takeTurn .popEnc s = .next { s with encOq := q, encPopped := s.encPopped ++ [w] }) ∧
    (∀ w q, s.decOq = w :: q →
      takeTurn .popDec s = .next { s with decOq := q, decPopped := s.decPopped ++ [w] }) ∧
    (s.encOq = [] → takeTurn .popEnc s = .refused (.popEmpty .enc)) ∧
    (s.decOq = [] → takeTurn .popDec s = .refused (.popEmpty .dec))

/-- R40: when reset acts every field takes its reset value, and no field is left out; `FAULTS` is not changed. That reset
acts in the very turn that asserts the input, and that the input is then at the asserted level, is the model's choice
(log 6); so is that the words the host has popped are kept (log 7), and the schedule (log 3). -/
def Obligations.ResetActs : Prop :=
  ∀ s : State,
    takeTurn (.reset true) s =
      .next { s with
        resetIn := true, encIq := [], encOq := [], decIq := [], decOq := []
        enc := { cnt := 0, hold := 0x0000 }
        dec := { pos := 0, acc := 0, pad3 := false, closed := false, err := false, stage := [] } }

/-- R230: while the reset input is asserted no engine step and no host step takes place. That the input is a level, moved
by turns of its own, and that reset acts again at every turn it is asserted, is the model's choice (log 6). -/
def Obligations.AssertedResetStopsTheBlock : Prop :=
  ∀ s : State,
    (takeTurn (.reset false) s = .next { s with resetIn := false }) ∧
    (s.resetIn = true → ∀ t : Turn, (∀ a, t ≠ .reset a) → takeTurn t s =
      .next { s with
        encIq := [], encOq := [], decIq := [], decOq := []
        enc := { cnt := 0, hold := 0x0000 }
        dec := { pos := 0, acc := 0, pad3 := false, closed := false, err := false, stage := [] } })

/-- R233: after reset both engines are in their idle state with empty queues and wait: an engine's turn changes
nothing until the host pushes a word. The fields are at the values of R40. -/
def Obligations.ResetStateWaits : Prop :=
  State.reset.enc = { cnt := 0, hold := 0x0000 } ∧
  State.reset.dec = { pos := 0, acc := 0, pad3 := false, closed := false, err := false, stage := [] } ∧
  State.reset.encIq = [] ∧ State.reset.encOq = [] ∧ State.reset.decIq = [] ∧ State.reset.decOq = [] ∧
  State.reset.FaultFree ∧
  takeTurn .enc State.reset = .next State.reset ∧ takeTurn .dec State.reset = .next State.reset

/-! ### Rules about every step -/

/-- R39 holds at reset, for every capacity of the staging buffer. -/
def Obligations.InvariantHoldsAtReset : Prop :=
  ∀ cfg : Config, (State.resetOf cfg).Inv

/-- R39 is kept by every step, whatever actor takes it, from every state that meets it, together with the bound of R30 on
the staging buffer and at most one fault an engine (R204). R39.7 is held modulo 3 here: which groups the message had is
no field; the count over a message is `StageCountsGroups`. -/
def Obligations.InvariantKeptByEveryStep : Prop :=
  ∀ s t : State, s.Inv → step s = .next t → t.Inv

/-- R200: no input word and no input data makes the block stop: from a state that keeps R39 every step answers a next
state, but for a host turn that pops an empty queue, which is no step (R55). -/
def Obligations.StepStopsOnlyOnEmptyPop : Prop :=
  ∀ s : State, s.Inv →
    (∃ t, step s = .next t) ∨
    (step s = .refused (.popEmpty .enc) ∧ s.encOq = [] ∧ s.schedule.head? = some .popEnc) ∨
    (step s = .refused (.popEmpty .dec) ∧ s.decOq = [] ∧ s.schedule.head? = some .popDec)

/-- R74, R75, R76: every word put out stays legal: `KIND` 0b00 or 0b01, payload 0x00 on `EOM`, and on the encoder's side
only alphabet characters and `'='`. -/
def Obligations.OutputWordsStayLegal : Prop :=
  ∀ s t : State, s.OutputsOk → step s = .next t → t.OutputsOk

/-- R35: everything that could vary is a parameter fixed at build time; no step, reset included, writes it. -/
def Obligations.ParametersNeverChange : Prop :=
  ∀ s t : State, step s = .next t → t.cfg = s.cfg

/-- R171: the decoder appends nothing to `DEC_OQ` but in a step that takes an `END` word: where the words put out grew, the
turn was the decoder's and the head word of `DEC_IQ` was an `END`. -/
def Obligations.DecoderEmitsOnlyAtEnd : Prop :=
  ∀ s t : State, step s = .next t →
    (s.decPopped ++ s.decOq).length < (t.decPopped ++ t.decOq).length →
    ∃ w q, s.schedule.head? = some .dec ∧ s.decIq = w :: q ∧ w.extractLsb' 8 2 = 0b01#2

/-- R77: each input `END` produces exactly one `EOM`: an engine's step keeps the number of `END` words still queued plus the
number of `EOM` words put out. -/
def Obligations.EachEndGivesOneEom : Prop :=
  ∀ s t : State, s.resetIn = false →
    (takeTurn .enc s = .next t →
      messageEnds t.encIq + messageEnds t.encOq = messageEnds s.encIq + messageEnds s.encOq) ∧
    (takeTurn .dec s = .next t →
      messageEnds t.decIq + messageEnds t.decOq = messageEnds s.decIq + messageEnds s.decOq)

/-- R55, R57, R60: no step outside reset loses, duplicates or reorders a word: what an output queue has carried only
grows at its end, and an input queue keeps its words, loses its head or gains a word at its end. -/
def Obligations.QueuesKeepTheirOrder : Prop :=
  ∀ s t : State, step s = .next t → s.resetIn = false → t.resetIn = false →
    (s.encPopped ++ s.encOq) <+: (t.encPopped ++ t.encOq) ∧
    (s.decPopped ++ s.decOq) <+: (t.decPopped ++ t.decOq) ∧
    (t.encIq = s.encIq ∨ t.encIq = s.encIq.tail ∨ ∃ w, t.encIq = s.encIq ++ [w]) ∧
    (t.decIq = s.decIq ∨ t.decIq = s.decIq.tail ∨ ∃ w, t.decIq = s.decIq ++ [w])

/-- R236, first duty: a host that pushes no reserved word meets no `RESERVED_WORD`; the encoder then raises no fault at
all, and the decoder only `STAGE_OVERFLOW`, which an unbounded capacity rules out too. -/
def Obligations.DutifulHostMeetsNoReservedWord : Prop :=
  ∀ s t : State, s.Dutiful → step s = .next t →
    t.Dutiful ∧ t.encFaults = s.encFaults ∧
    (∀ f ∈ t.decFaults, f ∈ s.decFaults ∨ f.reason = .stageOverflow) ∧
    (s.cfg.decStageCap = none → t.decFaults = s.decFaults)

/-! ### Independence of the engines and the order of turns -/

/-- R61: an `ENC` step and a `DEC` step reach the same state in either order. -/
def Obligations.EngineStepsCommute : Prop :=
  ∀ s t u : State, takeTurn .enc s = .next t → takeTurn .dec t = .next u →
    ∃ t', takeTurn .dec s = .next t' ∧ takeTurn .enc t' = .next u

/-- R61 over whole runs: any interleaving of engine steps ends in the state that running all of `ENC`'s and then all of
`DEC`'s ends in. -/
def Obligations.InterleavingIsImmaterial : Prop :=
  ∀ (ts : List Turn) (s u : State), (∀ t ∈ ts, t = .enc ∨ t = .dec) → runTurns ts s = .next u →
    runTurns (ts.filter (fun t => t == .enc) ++ ts.filter (fun t => t == .dec)) s = .next u

/-- R20, R138, R177: an engine's step is a function of its own share of the state (and the reset input; the decoder's also
of the capacity): two states that agree on it step to states that agree on it. -/
def Obligations.EngineStepsReadOnlyTheirShare : Prop :=
  ∀ s s' t : State, s.resetIn = s'.resetIn →
    (s.SameEncoder s' → takeTurn .enc s = .next t → ∃ t', takeTurn .enc s' = .next t' ∧ t.SameEncoder t') ∧
    (s.SameDecoder s' → s.cfg = s'.cfg → takeTurn .dec s = .next t →
      ∃ t', takeTurn .dec s' = .next t' ∧ t.SameDecoder t')

/-- The model's own convention (log 3): `ts.length` steps of the machine with `ts` at the head of the schedule take exactly
the turns of `ts` in their order, and leave the rest of the schedule. -/
def Obligations.StepsFollowTheSchedule : Prop :=
  ∀ (ts rest : List Turn) (s : State),
    runSteps ts.length { s with schedule := ts ++ rest } = runTurns ts { s with schedule := rest }

/-! ### Whole messages -/

/-- R140: from the idle state, one encoder message puts out exactly `ENCODE` of its bytes as data words, then `EOM`, and the
engine ends in the idle state; nothing else changes. -/
def Obligations.EncoderAgreesWithReference : Prop :=
  ∀ (b : List Byte) (s : State), s.enc = EncState.idle →
    runInstrs (encMessage b) s =
      .next { s with
        encIq := s.encIq.drop (b.length + 1)
        encOq := s.encOq ++ (encodeRef b).map (fun c => 0b00#2 ++ c) ++ [0x100#10] }

/-- R139: before the message ends, the encoder has put out the first `4 * (n div 3)` characters of its result. -/
def Obligations.EncoderEmitsEachGroupAtOnce : Prop :=
  ∀ (b : List Byte) (s : State), s.enc = EncState.idle →
    ∃ u, runInstrs (b.map Instr.encData) s = .next u ∧
      u.encOq = s.encOq ++ ((encodeRef b).take (4 * (b.length / 3))).map (fun c => 0b00#2 ++ c) ∧
      u.enc.cnt = BitVec.ofNat 2 (b.length % 3)

/-- R175: from the idle state, with no `STAGE_OVERFLOW`, one decoder message puts out exactly `DECODE` of its text as data
words, then `EOM`, all of it by the `DEC.END` step, and the engine ends in the idle state; nothing else changes. -/
def Obligations.DecoderAgreesWithReference : Prop :=
  ∀ (t : List Byte) (s u v : State), s.dec = DecState.idle → s.decFaults = [] →
    runInstrs (t.map Instr.decData) s = .next u → u.decFaults = [] → exec .decEnd u = .next v →
    u.decOq = s.decOq ∧
    v = { s with
      decIq := s.decIq.drop (t.length + 1)
      decOq := s.decOq ++ (decodeRef t).map (fun x => 0b00#2 ++ x) ++ [0x100#10] }

/-- R170: a message of at most `4 * (DEC_STAGE_CAP div 3)` characters, and any message when the capacity is unbounded, raises
no `STAGE_OVERFLOW`: from the idle state every word of it is taken and no fault is recorded. -/
def Obligations.MessageWithinCapacityNeverOverflows : Prop :=
  ∀ (t : List Byte) (s : State), s.dec = DecState.idle → s.messageFits t.length = true →
    ∃ u, runInstrs (decMessage t) s = .next u ∧ u.decFaults = s.decFaults ∧
      u.decIq = s.decIq.drop (t.length + 1)

/-- R39.7 and R28, over a message within the bound of R170 (a longer text that happens not to overflow is left out): while
no error is latched, after `n` characters the position is `n mod 4`, and the staging
buffer holds 3 bytes for each complete group without padding, plus 1 or 2 if a padded group closed the message. -/
def Obligations.StageCountsGroups : Prop :=
  ∀ (t : List Byte) (s u : State), s.dec = DecState.idle → s.messageFits t.length = true →
    runInstrs (t.map Instr.decData) s = .next u → u.dec.err = false →
    u.dec.pos = BitVec.ofNat 2 (t.length % 4) ∧
    (u.dec.closed = false → u.dec.stage.length = 3 * (t.length / 4)) ∧
    (u.dec.closed = true → ∃ k, (k = 1 ∨ k = 2) ∧ u.dec.stage.length + 3 = 3 * (t.length / 4) + k)

/-- R172: the result of an invalid message is `EOM` alone, and the state it leaves is the state an empty message leaves but
for the words taken: the host has no other sign. -/
def Obligations.InvalidMessageLooksEmpty : Prop :=
  ∀ (t : List Byte) (s : State), s.dec = DecState.idle → s.messageFits t.length = true → malformed t = true →
    runInstrs (decMessage t) s =
      .next { s with decIq := s.decIq.drop (t.length + 1), decOq := s.decOq ++ [0x100#10] } ∧
    runInstrs (decMessage []) s = .next { s with decIq := s.decIq.drop 1, decOq := s.decOq ++ [0x100#10] }

/-- A message pushed with its `END` is answered within `n + 1` steps of its engine (R239, R240): the host's pushes and the
engine's steps, as steps of the machine, put the message's whole result on the output queue and leave the engine idle
with an empty input queue. -/
def Obligations.PushedMessageIsAnswered : Prop :=
  ∀ (s : State) (rest : List Turn), s.resetIn = false →
    (∀ b : List Byte, s.enc = EncState.idle → s.encIq = [] → s.encFaults = [] →
      runSteps (encMessageTurns b).length { s with schedule := encMessageTurns b ++ rest } =
        .next { s with schedule := rest, encOq := s.encOq ++ resultWords (encodeRef b) }) ∧
    (∀ t : List Byte, s.dec = DecState.idle → s.decIq = [] → s.decFaults = [] →
      s.messageFits t.length = true →
      runSteps (decMessageTurns t).length { s with schedule := decMessageTurns t ++ rest } =
        .next { s with schedule := rest, decOq := s.decOq ++ resultWords (decodeRef t) })

/-- The round trip through both engines (R176 at step level): the bytes of an encoder message, then the characters of its
result as a decoder message, give back the bytes, and the run is complete for the two messages (R237). -/
def Obligations.RoundTripThroughBothEngines : Prop :=
  ∀ (b : List Byte) (s : State), s.resetIn = false → s.enc = EncState.idle → s.dec = DecState.idle → s.Quiescent →
    s.FaultFree → s.messageFits (encodeRef b).length = true →
    ∃ u, runTurns (encMessageTurns b ++ decMessageTurns (encodeRef b)) s = .next u ∧
      u = { s with
        encOq := s.encOq ++ resultWords (encodeRef b)
        decOq := s.decOq ++ resultWords b } ∧
      u.Complete (messageEnds (s.encPopped ++ s.encOq) + 1) (messageEnds (s.decPopped ++ s.decOq) + 1)
end

