-- ==== Sys2Proof/Laws/State.lean ====
section
/-! SUPPORT. One lemma per field per update of State, true by rfl, so that no later proof unfolds a record update; and
the two updates that depend on an engine or a level, field by field. -/

namespace Sys2Proof.Machine

variable (s : State)

/-! ### takeEnc -/

@[simp] theorem State.takeEnc_cfg : s.takeEnc.cfg = s.cfg := rfl
@[simp] theorem State.takeEnc_enc : s.takeEnc.enc = s.enc := rfl
@[simp] theorem State.takeEnc_dec : s.takeEnc.dec = s.dec := rfl
@[simp] theorem State.takeEnc_encIq : s.takeEnc.encIq = s.encIq.tail := rfl
@[simp] theorem State.takeEnc_encOq : s.takeEnc.encOq = s.encOq := rfl
@[simp] theorem State.takeEnc_decIq : s.takeEnc.decIq = s.decIq := rfl
@[simp] theorem State.takeEnc_decOq : s.takeEnc.decOq = s.decOq := rfl
@[simp] theorem State.takeEnc_encFaults : s.takeEnc.encFaults = s.encFaults := rfl
@[simp] theorem State.takeEnc_decFaults : s.takeEnc.decFaults = s.decFaults := rfl
@[simp] theorem State.takeEnc_resetIn : s.takeEnc.resetIn = s.resetIn := rfl
@[simp] theorem State.takeEnc_schedule : s.takeEnc.schedule = s.schedule := rfl
@[simp] theorem State.takeEnc_encPopped : s.takeEnc.encPopped = s.encPopped := rfl
@[simp] theorem State.takeEnc_decPopped : s.takeEnc.decPopped = s.decPopped := rfl

/-! ### takeDec -/

@[simp] theorem State.takeDec_cfg : s.takeDec.cfg = s.cfg := rfl
@[simp] theorem State.takeDec_enc : s.takeDec.enc = s.enc := rfl
@[simp] theorem State.takeDec_dec : s.takeDec.dec = s.dec := rfl
@[simp] theorem State.takeDec_encIq : s.takeDec.encIq = s.encIq := rfl
@[simp] theorem State.takeDec_encOq : s.takeDec.encOq = s.encOq := rfl
@[simp] theorem State.takeDec_decIq : s.takeDec.decIq = s.decIq.tail := rfl
@[simp] theorem State.takeDec_decOq : s.takeDec.decOq = s.decOq := rfl
@[simp] theorem State.takeDec_encFaults : s.takeDec.encFaults = s.encFaults := rfl
@[simp] theorem State.takeDec_decFaults : s.takeDec.decFaults = s.decFaults := rfl
@[simp] theorem State.takeDec_resetIn : s.takeDec.resetIn = s.resetIn := rfl
@[simp] theorem State.takeDec_schedule : s.takeDec.schedule = s.schedule := rfl
@[simp] theorem State.takeDec_encPopped : s.takeDec.encPopped = s.encPopped := rfl
@[simp] theorem State.takeDec_decPopped : s.takeDec.decPopped = s.decPopped := rfl

/-! ### emitEnc -/

@[simp] theorem State.emitEnc_cfg (ws : List PortWord) : (s.emitEnc ws).cfg = s.cfg := rfl
@[simp] theorem State.emitEnc_enc (ws : List PortWord) : (s.emitEnc ws).enc = s.enc := rfl
@[simp] theorem State.emitEnc_dec (ws : List PortWord) : (s.emitEnc ws).dec = s.dec := rfl
@[simp] theorem State.emitEnc_encIq (ws : List PortWord) : (s.emitEnc ws).encIq = s.encIq := rfl
@[simp] theorem State.emitEnc_encOq (ws : List PortWord) : (s.emitEnc ws).encOq = s.encOq ++ ws := rfl
@[simp] theorem State.emitEnc_decIq (ws : List PortWord) : (s.emitEnc ws).decIq = s.decIq := rfl
@[simp] theorem State.emitEnc_decOq (ws : List PortWord) : (s.emitEnc ws).decOq = s.decOq := rfl
@[simp] theorem State.emitEnc_encFaults (ws : List PortWord) : (s.emitEnc ws).encFaults = s.encFaults := rfl
@[simp] theorem State.emitEnc_decFaults (ws : List PortWord) : (s.emitEnc ws).decFaults = s.decFaults := rfl
@[simp] theorem State.emitEnc_resetIn (ws : List PortWord) : (s.emitEnc ws).resetIn = s.resetIn := rfl
@[simp] theorem State.emitEnc_schedule (ws : List PortWord) : (s.emitEnc ws).schedule = s.schedule := rfl
@[simp] theorem State.emitEnc_encPopped (ws : List PortWord) : (s.emitEnc ws).encPopped = s.encPopped := rfl
@[simp] theorem State.emitEnc_decPopped (ws : List PortWord) : (s.emitEnc ws).decPopped = s.decPopped := rfl

/-! ### emitDec -/

@[simp] theorem State.emitDec_cfg (ws : List PortWord) : (s.emitDec ws).cfg = s.cfg := rfl
@[simp] theorem State.emitDec_enc (ws : List PortWord) : (s.emitDec ws).enc = s.enc := rfl
@[simp] theorem State.emitDec_dec (ws : List PortWord) : (s.emitDec ws).dec = s.dec := rfl
@[simp] theorem State.emitDec_encIq (ws : List PortWord) : (s.emitDec ws).encIq = s.encIq := rfl
@[simp] theorem State.emitDec_encOq (ws : List PortWord) : (s.emitDec ws).encOq = s.encOq := rfl
@[simp] theorem State.emitDec_decIq (ws : List PortWord) : (s.emitDec ws).decIq = s.decIq := rfl
@[simp] theorem State.emitDec_decOq (ws : List PortWord) : (s.emitDec ws).decOq = s.decOq ++ ws := rfl
@[simp] theorem State.emitDec_encFaults (ws : List PortWord) : (s.emitDec ws).encFaults = s.encFaults := rfl
@[simp] theorem State.emitDec_decFaults (ws : List PortWord) : (s.emitDec ws).decFaults = s.decFaults := rfl
@[simp] theorem State.emitDec_resetIn (ws : List PortWord) : (s.emitDec ws).resetIn = s.resetIn := rfl
@[simp] theorem State.emitDec_schedule (ws : List PortWord) : (s.emitDec ws).schedule = s.schedule := rfl
@[simp] theorem State.emitDec_encPopped (ws : List PortWord) : (s.emitDec ws).encPopped = s.encPopped := rfl
@[simp] theorem State.emitDec_decPopped (ws : List PortWord) : (s.emitDec ws).decPopped = s.decPopped := rfl

/-! ### setEnc -/

@[simp] theorem State.setEnc_cfg (e : EncState) : (s.setEnc e).cfg = s.cfg := rfl
@[simp] theorem State.setEnc_enc (e : EncState) : (s.setEnc e).enc = e := rfl
@[simp] theorem State.setEnc_dec (e : EncState) : (s.setEnc e).dec = s.dec := rfl
@[simp] theorem State.setEnc_encIq (e : EncState) : (s.setEnc e).encIq = s.encIq := rfl
@[simp] theorem State.setEnc_encOq (e : EncState) : (s.setEnc e).encOq = s.encOq := rfl
@[simp] theorem State.setEnc_decIq (e : EncState) : (s.setEnc e).decIq = s.decIq := rfl
@[simp] theorem State.setEnc_decOq (e : EncState) : (s.setEnc e).decOq = s.decOq := rfl
@[simp] theorem State.setEnc_encFaults (e : EncState) : (s.setEnc e).encFaults = s.encFaults := rfl
@[simp] theorem State.setEnc_decFaults (e : EncState) : (s.setEnc e).decFaults = s.decFaults := rfl
@[simp] theorem State.setEnc_resetIn (e : EncState) : (s.setEnc e).resetIn = s.resetIn := rfl
@[simp] theorem State.setEnc_schedule (e : EncState) : (s.setEnc e).schedule = s.schedule := rfl
@[simp] theorem State.setEnc_encPopped (e : EncState) : (s.setEnc e).encPopped = s.encPopped := rfl
@[simp] theorem State.setEnc_decPopped (e : EncState) : (s.setEnc e).decPopped = s.decPopped := rfl

/-! ### setDec -/

@[simp] theorem State.setDec_cfg (d : DecState) : (s.setDec d).cfg = s.cfg := rfl
@[simp] theorem State.setDec_enc (d : DecState) : (s.setDec d).enc = s.enc := rfl
@[simp] theorem State.setDec_dec (d : DecState) : (s.setDec d).dec = d := rfl
@[simp] theorem State.setDec_encIq (d : DecState) : (s.setDec d).encIq = s.encIq := rfl
@[simp] theorem State.setDec_encOq (d : DecState) : (s.setDec d).encOq = s.encOq := rfl
@[simp] theorem State.setDec_decIq (d : DecState) : (s.setDec d).decIq = s.decIq := rfl
@[simp] theorem State.setDec_decOq (d : DecState) : (s.setDec d).decOq = s.decOq := rfl
@[simp] theorem State.setDec_encFaults (d : DecState) : (s.setDec d).encFaults = s.encFaults := rfl
@[simp] theorem State.setDec_decFaults (d : DecState) : (s.setDec d).decFaults = s.decFaults := rfl
@[simp] theorem State.setDec_resetIn (d : DecState) : (s.setDec d).resetIn = s.resetIn := rfl
@[simp] theorem State.setDec_schedule (d : DecState) : (s.setDec d).schedule = s.schedule := rfl
@[simp] theorem State.setDec_encPopped (d : DecState) : (s.setDec d).encPopped = s.encPopped := rfl
@[simp] theorem State.setDec_decPopped (d : DecState) : (s.setDec d).decPopped = s.decPopped := rfl

/-! ### pushEnc -/

@[simp] theorem State.pushEnc_cfg (w : PortWord) : (s.pushEnc w).cfg = s.cfg := rfl
@[simp] theorem State.pushEnc_enc (w : PortWord) : (s.pushEnc w).enc = s.enc := rfl
@[simp] theorem State.pushEnc_dec (w : PortWord) : (s.pushEnc w).dec = s.dec := rfl
@[simp] theorem State.pushEnc_encIq (w : PortWord) : (s.pushEnc w).encIq = s.encIq ++ [w] := rfl
@[simp] theorem State.pushEnc_encOq (w : PortWord) : (s.pushEnc w).encOq = s.encOq := rfl
@[simp] theorem State.pushEnc_decIq (w : PortWord) : (s.pushEnc w).decIq = s.decIq := rfl
@[simp] theorem State.pushEnc_decOq (w : PortWord) : (s.pushEnc w).decOq = s.decOq := rfl
@[simp] theorem State.pushEnc_encFaults (w : PortWord) : (s.pushEnc w).encFaults = s.encFaults := rfl
@[simp] theorem State.pushEnc_decFaults (w : PortWord) : (s.pushEnc w).decFaults = s.decFaults := rfl
@[simp] theorem State.pushEnc_resetIn (w : PortWord) : (s.pushEnc w).resetIn = s.resetIn := rfl
@[simp] theorem State.pushEnc_schedule (w : PortWord) : (s.pushEnc w).schedule = s.schedule := rfl
@[simp] theorem State.pushEnc_encPopped (w : PortWord) : (s.pushEnc w).encPopped = s.encPopped := rfl
@[simp] theorem State.pushEnc_decPopped (w : PortWord) : (s.pushEnc w).decPopped = s.decPopped := rfl

/-! ### pushDec -/

@[simp] theorem State.pushDec_cfg (w : PortWord) : (s.pushDec w).cfg = s.cfg := rfl
@[simp] theorem State.pushDec_enc (w : PortWord) : (s.pushDec w).enc = s.enc := rfl
@[simp] theorem State.pushDec_dec (w : PortWord) : (s.pushDec w).dec = s.dec := rfl
@[simp] theorem State.pushDec_encIq (w : PortWord) : (s.pushDec w).encIq = s.encIq := rfl
@[simp] theorem State.pushDec_encOq (w : PortWord) : (s.pushDec w).encOq = s.encOq := rfl
@[simp] theorem State.pushDec_decIq (w : PortWord) : (s.pushDec w).decIq = s.decIq ++ [w] := rfl
@[simp] theorem State.pushDec_decOq (w : PortWord) : (s.pushDec w).decOq = s.decOq := rfl
@[simp] theorem State.pushDec_encFaults (w : PortWord) : (s.pushDec w).encFaults = s.encFaults := rfl
@[simp] theorem State.pushDec_decFaults (w : PortWord) : (s.pushDec w).decFaults = s.decFaults := rfl
@[simp] theorem State.pushDec_resetIn (w : PortWord) : (s.pushDec w).resetIn = s.resetIn := rfl
@[simp] theorem State.pushDec_schedule (w : PortWord) : (s.pushDec w).schedule = s.schedule := rfl
@[simp] theorem State.pushDec_encPopped (w : PortWord) : (s.pushDec w).encPopped = s.encPopped := rfl
@[simp] theorem State.pushDec_decPopped (w : PortWord) : (s.pushDec w).decPopped = s.decPopped := rfl

/-! ### resetAct -/

@[simp] theorem State.resetAct_cfg : s.resetAct.cfg = s.cfg := rfl
@[simp] theorem State.resetAct_enc : s.resetAct.enc = EncState.idle := rfl
@[simp] theorem State.resetAct_dec : s.resetAct.dec = DecState.idle := rfl
@[simp] theorem State.resetAct_encIq : s.resetAct.encIq = [] := rfl
@[simp] theorem State.resetAct_encOq : s.resetAct.encOq = [] := rfl
@[simp] theorem State.resetAct_decIq : s.resetAct.decIq = [] := rfl
@[simp] theorem State.resetAct_decOq : s.resetAct.decOq = [] := rfl
@[simp] theorem State.resetAct_encFaults : s.resetAct.encFaults = s.encFaults := rfl
@[simp] theorem State.resetAct_decFaults : s.resetAct.decFaults = s.decFaults := rfl
@[simp] theorem State.resetAct_resetIn : s.resetAct.resetIn = s.resetIn := rfl
@[simp] theorem State.resetAct_schedule : s.resetAct.schedule = s.schedule := rfl
@[simp] theorem State.resetAct_encPopped : s.resetAct.encPopped = s.encPopped := rfl
@[simp] theorem State.resetAct_decPopped : s.resetAct.decPopped = s.decPopped := rfl

/-! ### decError -/

@[simp] theorem State.decError_cfg : s.decError.cfg = s.cfg := rfl
@[simp] theorem State.decError_enc : s.decError.enc = s.enc := rfl
@[simp] theorem State.decError_dec : s.decError.dec = s.dec.latchError := rfl
@[simp] theorem State.decError_encIq : s.decError.encIq = s.encIq := rfl
@[simp] theorem State.decError_encOq : s.decError.encOq = s.encOq := rfl
@[simp] theorem State.decError_decIq : s.decError.decIq = s.decIq.tail := rfl
@[simp] theorem State.decError_decOq : s.decError.decOq = s.decOq := rfl
@[simp] theorem State.decError_encFaults : s.decError.encFaults = s.encFaults := rfl
@[simp] theorem State.decError_decFaults : s.decError.decFaults = s.decFaults := rfl
@[simp] theorem State.decError_resetIn : s.decError.resetIn = s.resetIn := rfl
@[simp] theorem State.decError_schedule : s.decError.schedule = s.schedule := rfl
@[simp] theorem State.decError_encPopped : s.decError.encPopped = s.encPopped := rfl
@[simp] theorem State.decError_decPopped : s.decError.decPopped = s.decPopped := rfl

/-! ### decFinish -/

@[simp] theorem State.decFinish_cfg (ws : List PortWord) : (s.decFinish ws).cfg = s.cfg := rfl
@[simp] theorem State.decFinish_enc (ws : List PortWord) : (s.decFinish ws).enc = s.enc := rfl
@[simp] theorem State.decFinish_dec (ws : List PortWord) : (s.decFinish ws).dec = DecState.idle := rfl
@[simp] theorem State.decFinish_encIq (ws : List PortWord) : (s.decFinish ws).encIq = s.encIq := rfl
@[simp] theorem State.decFinish_encOq (ws : List PortWord) : (s.decFinish ws).encOq = s.encOq := rfl
@[simp] theorem State.decFinish_decIq (ws : List PortWord) : (s.decFinish ws).decIq = s.decIq.tail := rfl
@[simp] theorem State.decFinish_decOq (ws : List PortWord) : (s.decFinish ws).decOq = s.decOq ++ ws := rfl
@[simp] theorem State.decFinish_encFaults (ws : List PortWord) : (s.decFinish ws).encFaults = s.encFaults := rfl
@[simp] theorem State.decFinish_decFaults (ws : List PortWord) : (s.decFinish ws).decFaults = s.decFaults := rfl
@[simp] theorem State.decFinish_resetIn (ws : List PortWord) : (s.decFinish ws).resetIn = s.resetIn := rfl
@[simp] theorem State.decFinish_schedule (ws : List PortWord) : (s.decFinish ws).schedule = s.schedule := rfl
@[simp] theorem State.decFinish_encPopped (ws : List PortWord) : (s.decFinish ws).encPopped = s.encPopped := rfl
@[simp] theorem State.decFinish_decPopped (ws : List PortWord) : (s.decFinish ws).decPopped = s.decPopped := rfl

/-! ### raiseFault: the engine's own list grows, all else stays -/

@[simp] theorem State.raiseFault_enc_cfg (f : FaultEntry) : (s.raiseFault .enc f).cfg = s.cfg := rfl
@[simp] theorem State.raiseFault_enc_enc (f : FaultEntry) : (s.raiseFault .enc f).enc = s.enc := rfl
@[simp] theorem State.raiseFault_enc_dec (f : FaultEntry) : (s.raiseFault .enc f).dec = s.dec := rfl
@[simp] theorem State.raiseFault_enc_encIq (f : FaultEntry) : (s.raiseFault .enc f).encIq = s.encIq := rfl
@[simp] theorem State.raiseFault_enc_encOq (f : FaultEntry) : (s.raiseFault .enc f).encOq = s.encOq := rfl
@[simp] theorem State.raiseFault_enc_decIq (f : FaultEntry) : (s.raiseFault .enc f).decIq = s.decIq := rfl
@[simp] theorem State.raiseFault_enc_decOq (f : FaultEntry) : (s.raiseFault .enc f).decOq = s.decOq := rfl
@[simp] theorem State.raiseFault_enc_encFaults (f : FaultEntry) : (s.raiseFault .enc f).encFaults = addFault s.encFaults f := rfl
@[simp] theorem State.raiseFault_enc_decFaults (f : FaultEntry) : (s.raiseFault .enc f).decFaults = s.decFaults := rfl
@[simp] theorem State.raiseFault_enc_resetIn (f : FaultEntry) : (s.raiseFault .enc f).resetIn = s.resetIn := rfl
@[simp] theorem State.raiseFault_enc_schedule (f : FaultEntry) : (s.raiseFault .enc f).schedule = s.schedule := rfl
@[simp] theorem State.raiseFault_enc_encPopped (f : FaultEntry) : (s.raiseFault .enc f).encPopped = s.encPopped := rfl
@[simp] theorem State.raiseFault_enc_decPopped (f : FaultEntry) : (s.raiseFault .enc f).decPopped = s.decPopped := rfl

@[simp] theorem State.raiseFault_dec_cfg (f : FaultEntry) : (s.raiseFault .dec f).cfg = s.cfg := rfl
@[simp] theorem State.raiseFault_dec_enc (f : FaultEntry) : (s.raiseFault .dec f).enc = s.enc := rfl
@[simp] theorem State.raiseFault_dec_dec (f : FaultEntry) : (s.raiseFault .dec f).dec = s.dec := rfl
@[simp] theorem State.raiseFault_dec_encIq (f : FaultEntry) : (s.raiseFault .dec f).encIq = s.encIq := rfl
@[simp] theorem State.raiseFault_dec_encOq (f : FaultEntry) : (s.raiseFault .dec f).encOq = s.encOq := rfl
@[simp] theorem State.raiseFault_dec_decIq (f : FaultEntry) : (s.raiseFault .dec f).decIq = s.decIq := rfl
@[simp] theorem State.raiseFault_dec_decOq (f : FaultEntry) : (s.raiseFault .dec f).decOq = s.decOq := rfl
@[simp] theorem State.raiseFault_dec_encFaults (f : FaultEntry) : (s.raiseFault .dec f).encFaults = s.encFaults := rfl
@[simp] theorem State.raiseFault_dec_decFaults (f : FaultEntry) : (s.raiseFault .dec f).decFaults = addFault s.decFaults f := rfl
@[simp] theorem State.raiseFault_dec_resetIn (f : FaultEntry) : (s.raiseFault .dec f).resetIn = s.resetIn := rfl
@[simp] theorem State.raiseFault_dec_schedule (f : FaultEntry) : (s.raiseFault .dec f).schedule = s.schedule := rfl
@[simp] theorem State.raiseFault_dec_encPopped (f : FaultEntry) : (s.raiseFault .dec f).encPopped = s.encPopped := rfl
@[simp] theorem State.raiseFault_dec_decPopped (f : FaultEntry) : (s.raiseFault .dec f).decPopped = s.decPopped := rfl

/-! ### driveReset -/

@[simp] theorem State.driveReset_true_cfg : (s.driveReset true).cfg = s.cfg := rfl
@[simp] theorem State.driveReset_true_enc : (s.driveReset true).enc = EncState.idle := rfl
@[simp] theorem State.driveReset_true_dec : (s.driveReset true).dec = DecState.idle := rfl
@[simp] theorem State.driveReset_true_encIq : (s.driveReset true).encIq = [] := rfl
@[simp] theorem State.driveReset_true_encOq : (s.driveReset true).encOq = [] := rfl
@[simp] theorem State.driveReset_true_decIq : (s.driveReset true).decIq = [] := rfl
@[simp] theorem State.driveReset_true_decOq : (s.driveReset true).decOq = [] := rfl
@[simp] theorem State.driveReset_true_encFaults : (s.driveReset true).encFaults = s.encFaults := rfl
@[simp] theorem State.driveReset_true_decFaults : (s.driveReset true).decFaults = s.decFaults := rfl
@[simp] theorem State.driveReset_true_resetIn : (s.driveReset true).resetIn = true := rfl
@[simp] theorem State.driveReset_true_schedule : (s.driveReset true).schedule = s.schedule := rfl
@[simp] theorem State.driveReset_true_encPopped : (s.driveReset true).encPopped = s.encPopped := rfl
@[simp] theorem State.driveReset_true_decPopped : (s.driveReset true).decPopped = s.decPopped := rfl

@[simp] theorem State.driveReset_false_cfg : (s.driveReset false).cfg = s.cfg := rfl
@[simp] theorem State.driveReset_false_enc : (s.driveReset false).enc = s.enc := rfl
@[simp] theorem State.driveReset_false_dec : (s.driveReset false).dec = s.dec := rfl
@[simp] theorem State.driveReset_false_encIq : (s.driveReset false).encIq = s.encIq := rfl
@[simp] theorem State.driveReset_false_encOq : (s.driveReset false).encOq = s.encOq := rfl
@[simp] theorem State.driveReset_false_decIq : (s.driveReset false).decIq = s.decIq := rfl
@[simp] theorem State.driveReset_false_decOq : (s.driveReset false).decOq = s.decOq := rfl
@[simp] theorem State.driveReset_false_encFaults : (s.driveReset false).encFaults = s.encFaults := rfl
@[simp] theorem State.driveReset_false_decFaults : (s.driveReset false).decFaults = s.decFaults := rfl
@[simp] theorem State.driveReset_false_resetIn : (s.driveReset false).resetIn = false := rfl
@[simp] theorem State.driveReset_false_schedule : (s.driveReset false).schedule = s.schedule := rfl
@[simp] theorem State.driveReset_false_encPopped : (s.driveReset false).encPopped = s.encPopped := rfl
@[simp] theorem State.driveReset_false_decPopped : (s.driveReset false).decPopped = s.decPopped := rfl

/-! ### The state after reset -/

@[simp] theorem State.resetOf_cfg (c : Config) : (State.resetOf c).cfg = c := rfl
@[simp] theorem State.resetOf_enc (c : Config) : (State.resetOf c).enc = EncState.idle := rfl
@[simp] theorem State.resetOf_dec (c : Config) : (State.resetOf c).dec = DecState.idle := rfl
@[simp] theorem State.resetOf_encIq (c : Config) : (State.resetOf c).encIq = [] := rfl
@[simp] theorem State.resetOf_encOq (c : Config) : (State.resetOf c).encOq = [] := rfl
@[simp] theorem State.resetOf_decIq (c : Config) : (State.resetOf c).decIq = [] := rfl
@[simp] theorem State.resetOf_decOq (c : Config) : (State.resetOf c).decOq = [] := rfl
@[simp] theorem State.resetOf_encFaults (c : Config) : (State.resetOf c).encFaults = [] := rfl
@[simp] theorem State.resetOf_decFaults (c : Config) : (State.resetOf c).decFaults = [] := rfl
@[simp] theorem State.resetOf_resetIn (c : Config) : (State.resetOf c).resetIn = false := rfl
@[simp] theorem State.resetOf_schedule (c : Config) : (State.resetOf c).schedule = [] := rfl
@[simp] theorem State.resetOf_encPopped (c : Config) : (State.resetOf c).encPopped = [] := rfl
@[simp] theorem State.resetOf_decPopped (c : Config) : (State.resetOf c).decPopped = [] := rfl

end Sys2Proof.Machine
end

