-- ==== Sys2Proof/Laws/Alphabet.lean ====
section
/-! SUPPORT. The two ROMs: what `classify` says of each code, once, and the facts the other laws use. -/

namespace Sys2Proof.Machine

/-- What `classify` says of each of the 256 codes: the code is that of its sextet, or the pad, or neither. -/
theorem classify_cases (c : Byte) :
    (∃ s, classify c = .data s ∧ c = fwd s) ∨ (classify c = .pad ∧ c = padChar) ∨ classify c = .invalid := by
  have h : ∀ c : Byte, (match classify c with
      | .data s => c == fwd s
      | .pad => c == padChar
      | .invalid => true) = true := by decide
  have hc := h c
  cases hk : classify c with
  | data s => rw [hk] at hc; exact .inl ⟨s, rfl, eq_of_beq hc⟩
  | pad => rw [hk] at hc; exact .inr (.inl ⟨rfl, eq_of_beq hc⟩)
  | invalid => exact .inr (.inr rfl)

@[simp] theorem classify_fwd (s : Sextet) : classify (fwd s) = .data s := by revert s; decide

@[simp] theorem classify_padChar : classify padChar = .pad := by decide

theorem fwd_of_classify {c : Byte} {s : Sextet} (h : classify c = .data s) : c = fwd s := by
  obtain ⟨t, ht, hc⟩ | ⟨hp, -⟩ | hi := classify_cases c
  · rw [ht] at h; cases h; exact hc
  · rw [hp] at h; cases h
  · rw [hi] at h; cases h

theorem classify_eq_pad_iff (c : Byte) : classify c = .pad ↔ c = padChar := by
  constructor
  · intro h
    obtain ⟨t, ht, -⟩ | ⟨-, hp⟩ | hi := classify_cases c
    · rw [ht] at h; cases h
    · exact hp
    · rw [hi] at h; cases h
  · rintro rfl; exact classify_padChar

theorem fwd_ne_padChar (s : Sextet) : fwd s ≠ padChar := by
  intro h
  have := classify_fwd s
  rw [h, classify_padChar] at this
  cases this

theorem beq_padChar_of_data {c : Byte} {s : Sextet} (h : classify c = .data s) : (c == padChar) = false := by
  rw [beq_eq_false_iff_ne, fwd_of_classify h]; exact fwd_ne_padChar s

@[simp] theorem sextetOf_fwd (s : Sextet) : sextetOf (fwd s) = s := by simp [sextetOf]

@[simp] theorem sextetOf_padChar : sextetOf padChar = 0 := by simp [sextetOf]

/-- A ROM entry is one of the encoder's output characters (R75). -/
theorem isOutputChar_map6 (s : Sextet) : isOutputChar (map6 s) = true := by revert s; decide

theorem isOutputChar_padChar : isOutputChar padChar = true := by decide

end Sys2Proof.Machine
end

