-- ==== Sys2Proof/Laws/Bits.lean ====
section
/-! SUPPORT. The slices of a group, of `ENC_HOLD`, of `DEC_ACC` and of a port word, each read off the value it was built
from. -/

namespace Sys2Proof

@[simp] theorem kind_dataWord (x : Byte) : kind (dataWord x) = 0b00#2 := by
  apply BitVec.eq_of_getLsbD_eq
  intro i hi
  simp only [kind, dataWord, BitVec.getLsbD_append, BitVec.getLsbD_extractLsb']
  interval_cases i <;> simp

@[simp] theorem payload_dataWord (x : Byte) : payload (dataWord x) = x := by
  apply BitVec.eq_of_getLsbD_eq
  intro i hi
  simp only [payload, dataWord, BitVec.getLsbD_append, BitVec.getLsbD_extractLsb']
  interval_cases i <;> simp

@[simp] theorem kind_endWord : kind endWord = 0b01#2 := by decide

@[simp] theorem decodeIw_enc_dataWord (x : Byte) : decodeIw .enc (dataWord x) = .instr (.encData x) := by
  simp [decodeIw]

@[simp] theorem decodeIw_dec_dataWord (x : Byte) : decodeIw .dec (dataWord x) = .instr (.decData x) := by
  simp [decodeIw]

@[simp] theorem decodeIw_enc_endWord : decodeIw .enc endWord = .instr .encEnd := by decide

@[simp] theorem decodeIw_dec_endWord : decodeIw .dec endWord = .instr .decEnd := by decide

@[simp] theorem endsMessage_dataWord (x : Byte) : endsMessage (dataWord x) = false := by
  simp [endsMessage]

@[simp] theorem endsMessage_endWord : endsMessage endWord = true := by decide

@[simp] theorem endsMessage_eom : endsMessage eom = true := by decide

namespace Machine

theorem sextet0_groupOfBytes (a b c : Byte) : sextet0 (groupOfBytes a b c) = a.extractLsb' 2 6 := by
  apply BitVec.eq_of_getLsbD_eq
  intro i hi
  simp only [groupOfBytes, sextet0, BitVec.getLsbD_append, BitVec.getLsbD_extractLsb']
  interval_cases i <;> simp

theorem sextet1_groupOfBytes (a b c : Byte) :
    sextet1 (groupOfBytes a b c) = a.extractLsb' 0 2 ++ b.extractLsb' 4 4 := by
  apply BitVec.eq_of_getLsbD_eq
  intro i hi
  simp only [groupOfBytes, sextet1, BitVec.getLsbD_append, BitVec.getLsbD_extractLsb']
  interval_cases i <;> simp

theorem sextet2_groupOfBytes (a b c : Byte) :
    sextet2 (groupOfBytes a b c) = b.extractLsb' 0 4 ++ c.extractLsb' 6 2 := by
  apply BitVec.eq_of_getLsbD_eq
  intro i hi
  simp only [groupOfBytes, sextet2, BitVec.getLsbD_append, BitVec.getLsbD_extractLsb']
  interval_cases i <;> simp

theorem sextet3_groupOfBytes (a b c : Byte) : sextet3 (groupOfBytes a b c) = c.extractLsb' 0 6 := by
  apply BitVec.eq_of_getLsbD_eq
  intro i hi
  simp only [groupOfBytes, sextet3, BitVec.getLsbD_append, BitVec.getLsbD_extractLsb']
  interval_cases i <;> simp

@[simp] theorem byte0_groupOfBytes (a b c : Byte) : byte0 (groupOfBytes a b c) = a := by
  apply BitVec.eq_of_getLsbD_eq
  intro i hi
  simp only [groupOfBytes, byte0, BitVec.getLsbD_append, BitVec.getLsbD_extractLsb']
  interval_cases i <;> simp

@[simp] theorem byte1_groupOfBytes (a b c : Byte) : byte1 (groupOfBytes a b c) = b := by
  apply BitVec.eq_of_getLsbD_eq
  intro i hi
  simp only [groupOfBytes, byte1, BitVec.getLsbD_append, BitVec.getLsbD_extractLsb']
  interval_cases i <;> simp

@[simp] theorem byte2_groupOfBytes (a b c : Byte) : byte2 (groupOfBytes a b c) = c := by
  apply BitVec.eq_of_getLsbD_eq
  intro i hi
  simp only [groupOfBytes, byte2, BitVec.getLsbD_append, BitVec.getLsbD_extractLsb']
  interval_cases i <;> simp

theorem byte0_groupOfSextets (a b c d : Sextet) : byte0 (groupOfSextets a b c d) = a ++ b.extractLsb' 4 2 := by
  apply BitVec.eq_of_getLsbD_eq
  intro i hi
  simp only [groupOfSextets, byte0, BitVec.getLsbD_append, BitVec.getLsbD_extractLsb']
  interval_cases i <;> simp

theorem byte1_groupOfSextets (a b c d : Sextet) :
    byte1 (groupOfSextets a b c d) = b.extractLsb' 0 4 ++ c.extractLsb' 2 4 := by
  apply BitVec.eq_of_getLsbD_eq
  intro i hi
  simp only [groupOfSextets, byte1, BitVec.getLsbD_append, BitVec.getLsbD_extractLsb']
  interval_cases i <;> simp

theorem byte2_groupOfSextets (a b c d : Sextet) : byte2 (groupOfSextets a b c d) = c.extractLsb' 0 2 ++ d := by
  apply BitVec.eq_of_getLsbD_eq
  intro i hi
  simp only [groupOfSextets, byte2, BitVec.getLsbD_append, BitVec.getLsbD_extractLsb']
  interval_cases i <;> simp

/-- A group is made of its four sextets. -/
theorem groupOfSextets_sextets (g : Group) :
    groupOfSextets (sextet0 g) (sextet1 g) (sextet2 g) (sextet3 g) = g := by
  apply BitVec.eq_of_getLsbD_eq
  intro i hi
  simp only [groupOfSextets, sextet0, sextet1, sextet2, sextet3, BitVec.getLsbD_append, BitVec.getLsbD_extractLsb']
  interval_cases i <;> simp

@[simp] theorem holdFirst_holdOf (a b : Byte) : holdFirst (holdOf a b) = a := by
  apply BitVec.eq_of_getLsbD_eq
  intro i hi
  simp only [holdOf, holdFirst, BitVec.getLsbD_append, BitVec.getLsbD_extractLsb']
  interval_cases i <;> simp

@[simp] theorem holdSecond_holdOf (a b : Byte) : holdSecond (holdOf a b) = b := by
  apply BitVec.eq_of_getLsbD_eq
  intro i hi
  simp only [holdOf, holdSecond, BitVec.getLsbD_append, BitVec.getLsbD_extractLsb']
  interval_cases i <;> simp

@[simp] theorem groupOfHold_holdOf (a b c : Byte) : groupOfHold (holdOf a b) c = groupOfBytes a b c := rfl

@[simp] theorem accFirst_low (v : Sextet) : (accFirst v).extractLsb' 0 12 = 0#12 := by
  apply BitVec.eq_of_getLsbD_eq
  intro i hi
  simp only [accFirst, BitVec.getLsbD_append, BitVec.getLsbD_extractLsb']
  interval_cases i <;> simp

@[simp] theorem accSecond_low (acc : BitVec 18) (v : Sextet) : (accSecond acc v).extractLsb' 0 6 = 0#6 := by
  apply BitVec.eq_of_getLsbD_eq
  intro i hi
  simp only [accSecond, BitVec.getLsbD_append, BitVec.getLsbD_extractLsb']
  interval_cases i <;> simp

theorem accSecond_accFirst (a b : Sextet) : accSecond (accFirst a) b = a ++ b ++ 0#6 := by
  apply BitVec.eq_of_getLsbD_eq
  intro i hi
  simp only [accFirst, accSecond, BitVec.getLsbD_append, BitVec.getLsbD_extractLsb']
  interval_cases i <;> simp

theorem accThird_of_two (a b c : Sextet) : accThird (a ++ b ++ 0#6) c = a ++ b ++ c := by
  apply BitVec.eq_of_getLsbD_eq
  intro i hi
  simp only [accThird, BitVec.getLsbD_append, BitVec.getLsbD_extractLsb']
  interval_cases i <;> simp

/-- The group a fourth character completes after three data characters. -/
@[simp] theorem groupOfAcc_three (a b c d : Sextet) :
    groupOfAcc (accThird (accSecond (accFirst a) b) c) d = groupOfSextets a b c d := by
  rw [accSecond_accFirst, accThird_of_two]; rfl

/-- The group that two pads complete after two data characters. -/
@[simp] theorem groupOfAcc_two (a b : Sextet) : groupOfAcc (accSecond (accFirst a) b) 0#6 = groupOfSextets a b 0#6 0#6 := by
  rw [accSecond_accFirst]; rfl

end Machine

end Sys2Proof
end

