-- ==== Sys2Proof/Laws/Exec.lean ====
section
/-! SUPPORT. What each meaning can do, said once: the encoder's by `ENC_CNT`, the decoder's through one pure function on its
fields and the bytes it stages. Later proofs cite these and do not unfold a meaning. -/

namespace Sys2Proof.Machine

/-! ### Capacity -/

theorem State.stageFits_of_none {s : State} (h : s.cfg.decStageCap = none) (k : Nat) : s.stageFits k = true := by
  simp [State.stageFits, h]

theorem State.stageFits_of_some {s : State} {n : Nat} (h : s.cfg.decStageCap = some n) (k : Nat) :
    s.stageFits k = true ↔ s.dec.stage.length + k ≤ n := by
  simp [State.stageFits, h]

/-- The staging buffer has room for `k` bytes more: it is unbounded, or its capacity is at least the length it would
reach (R166, R170). -/
theorem State.stageFits_iff {s : State} {k : Nat} : s.stageFits k = true ↔
    s.cfg.decStageCap = none ∨ ∃ n, s.cfg.decStageCap = some n ∧ s.dec.stage.length + k ≤ n := by
  cases h : s.cfg.decStageCap with
  | none => simp [State.stageFits_of_none h]
  | some n => simp [State.stageFits_of_some h]

/-- It has none: its capacity is below the length it would reach (R166, R170). -/
theorem State.stageFits_eq_false_of_lt {s : State} {n k : Nat} (h : s.cfg.decStageCap = some n)
    (hlt : n < s.dec.stage.length + k) : s.stageFits k = false := by
  rw [← Bool.not_eq_true, State.stageFits_of_some h]; omega

/-! ### The encoder -/

/-- `ENC.DATA` when it answers a next state. -/
theorem execEncData_next {b : Byte} {s t : State} (h : execEncData b s = .next t) :
    (s.enc.cnt = 0 ∧ t = s.takeEnc.setEnc ⟨1, holdOf b 0x00⟩) ∨
    (s.enc.cnt = 1 ∧ t = s.takeEnc.setEnc ⟨2, holdOf (holdFirst s.enc.hold) b⟩) ∨
    (s.enc.cnt = 2 ∧
      t = (s.takeEnc.emitEnc ((groupChars (groupOfHold s.enc.hold b)).map dataWord)).setEnc EncState.idle) := by
  unfold execEncData at h
  split at h
  · cases h; exact .inl ⟨‹_›, rfl⟩
  · split at h
    · cases h; exact .inr (.inl ⟨‹_›, rfl⟩)
    · split at h
      · cases h; exact .inr (.inr ⟨‹_›, rfl⟩)
      · cases h

/-- The words `ENC.END` emits before `EOM`, by the encoder's fields. -/
def endTail (e : EncState) : List Byte :=
  if e.cnt = 0 then []
  else if e.cnt = 1 then tailChars1 (groupOfBytes (holdFirst e.hold) 0x00 0x00)
  else tailChars2 (groupOfHold e.hold 0x00)

/-- `ENC.END` when it answers a next state. -/
theorem execEncEnd_next {s t : State} (h : execEncEnd s = .next t) :
    s.enc.cnt ≠ 3 ∧
      t = (s.takeEnc.emitEnc ((endTail s.enc).map dataWord ++ [eom])).setEnc EncState.idle := by
  unfold execEncEnd at h
  split at h
  · rename_i h0
    cases h; exact ⟨by rw [h0]; decide, by simp [endTail, h0]⟩
  · split at h
    · rename_i h0 h1
      cases h; exact ⟨by rw [h1]; decide, by simp [endTail, h1]⟩
    · split at h
      · rename_i h0 h1 h2
        cases h; exact ⟨by rw [h2]; decide, by simp [endTail, h2]⟩
      · cases h

/-- The three values of `ENC_CNT` a run reaches. -/
theorem cnt_cases {c : BitVec 2} (h : c ≠ 3) : c = 0 ∨ c = 1 ∨ c = 2 := by
  revert c; decide

/-- The four values of `DEC_POS`. -/
theorem pos_cases (p : BitVec 2) : p = 0 ∨ p = 1 ∨ p = 2 ∨ p = 3 := by
  revert p; decide

theorem execEncData_complete {s : State} (h : s.enc.cnt ≠ 3) (b : Byte) : ∃ t, execEncData b s = .next t := by
  obtain h | h | h := cnt_cases h <;> simp [execEncData, h]

theorem execEncEnd_eq {s : State} (h : s.enc.cnt ≠ 3) :
    execEncEnd s = .next ((s.takeEnc.emitEnc ((endTail s.enc).map dataWord ++ [eom])).setEnc EncState.idle) := by
  obtain h | h | h := cnt_cases h <;> simp [execEncEnd, endTail, h]

/-! ### The decoder -/

/-- The bytes `DEC.DATA c` stages, by the decoder's fields: none but at the end of a group. -/
def decStages (c : Byte) (d : DecState) : List Byte :=
  if d.err || d.closed then []
  else
    match classify c with
    | .invalid => []
    | .pad =>
      if d.pos = 3 then
        if d.pad3 then groupBytes1 (groupOfAcc d.acc 0) else groupBytes2 (groupOfAcc d.acc 0)
      else []
    | .data v => if d.pos = 3 ∧ d.pad3 = false then groupBytes3 (groupOfAcc d.acc v) else []

/-- The decoder's fields after `DEC.DATA c`, by its fields before, when the staging buffer has room. -/
def decNext (c : Byte) (d : DecState) : DecState :=
  if d.err then d
  else
    match classify c with
    | .invalid => d.latchError
    | .pad =>
      if d.closed then d.latchError
      else if d.pos = 0 then d.latchError
      else if d.pos = 1 then d.latchError
      else if d.pos = 2 then d.padThird
      else { d.closeGroup with stage := d.stage ++ decStages c d }
    | .data v =>
      if d.closed then d.latchError
      else if d.pad3 then d.latchError
      else if d.pos = 0 then { d with acc := accFirst v, pos := 1 }
      else if d.pos = 1 then { d with acc := accSecond d.acc v, pos := 2 }
      else if d.pos = 2 then { d with acc := accThird d.acc v, pos := 3 }
      else { d.nextGroup with stage := d.stage ++ decStages c d }

/-- `DEC.DATA` as one equation: past the capacity the fault and nothing else, otherwise the word is taken and the fields
are those of `decNext`. -/
theorem execDecData_eq (c : Byte) (s : State) :
    execDecData c s = .next
      (if decStages c s.dec ≠ [] ∧ s.stageFits (decStages c s.dec).length = false then
        s.raiseFault .dec ⟨.stageOverflow, dataWord c, some s.dec.stage.length⟩
      else s.takeDec.setDec (decNext c s.dec)) := by
  unfold execDecData
  cases he : s.dec.err with
  | true => simp only [decStages, decNext, he]; rfl
  | false =>
    cases hk : classify c with
    | invalid => simp [decStages, decNext, he, hk, State.decError]
    | pad =>
      cases hc : s.dec.closed with
      | true => simp [decStages, decNext, he, hk, hc, State.decError]
      | false =>
        obtain hp | hp | hp | hp := pos_cases s.dec.pos
        · simp [decStages, decNext, he, hk, hc, hp, decPadChar, State.decError]
        · simp [decStages, decNext, he, hk, hc, hp, decPadChar, State.decError]
        · simp [decStages, decNext, he, hk, hc, hp, decPadChar]
        · cases h3 : s.dec.pad3 with
          | true =>
            cases hf : s.stageFits 1 <;>
              simp [decStages, decNext, he, hk, hc, hp, h3, decPadChar, State.stageThen, groupBytes1, hf]
          | false =>
            cases hf : s.stageFits 2 <;>
              simp [decStages, decNext, he, hk, hc, hp, h3, decPadChar, State.stageThen, groupBytes2, hf]
    | data v =>
      cases hc : s.dec.closed with
      | true => simp [decStages, decNext, he, hk, hc, State.decError]
      | false =>
        cases h3 : s.dec.pad3 with
        | true => simp [decStages, decNext, he, hk, hc, h3, decDataChar, State.decError]
        | false =>
          obtain hp | hp | hp | hp := pos_cases s.dec.pos
          · simp [decStages, decNext, he, hk, hc, hp, h3, decDataChar]
          · simp [decStages, decNext, he, hk, hc, hp, h3, decDataChar]
          · simp [decStages, decNext, he, hk, hc, hp, h3, decDataChar]
          · cases hf : s.stageFits 3 <;>
              simp [decStages, decNext, he, hk, hc, hp, h3, decDataChar, State.stageThen, groupBytes3, hf]

/-- `DEC.DATA` when the bytes it stages fit. -/
theorem execDecData_of_fits {c : Byte} {s : State} (h : s.stageFits (decStages c s.dec).length = true) :
    execDecData c s = .next (s.takeDec.setDec (decNext c s.dec)) := by
  rw [execDecData_eq, if_neg (by simp [h])]

/-- `DEC.DATA` either takes its word and writes the decoder's fields, or records one fault and nothing else. -/
theorem execDecData_next {c : Byte} {s t : State} (h : execDecData c s = .next t) :
    t = s.takeDec.setDec (decNext c s.dec) ∧
      (decStages c s.dec = [] ∨ s.stageFits (decStages c s.dec).length = true) ∨
    t = s.raiseFault .dec ⟨.stageOverflow, dataWord c, some s.dec.stage.length⟩ ∧
      s.stageFits (decStages c s.dec).length = false := by
  rw [execDecData_eq] at h
  split at h
  · rename_i hn
    cases h; exact .inr ⟨rfl, hn.2⟩
  · rename_i hn
    cases h
    refine .inl ⟨rfl, ?_⟩
    by_cases h0 : decStages c s.dec = []
    · exact .inl h0
    · right
      cases hf : s.stageFits (decStages c s.dec).length with
      | true => rfl
      | false => exact absurd ⟨h0, hf⟩ hn

/-- The words `DEC.END` emits, by the decoder's fields. -/
def endWords (d : DecState) : List PortWord := (if d.valid then d.stage.map dataWord else []) ++ [eom]

theorem execDecEnd_eq (s : State) : execDecEnd s = .next (s.decFinish (endWords s.dec)) := rfl

@[simp] theorem decNext_of_err {c : Byte} {d : DecState} (h : d.err = true) : decNext c d = d := by
  simp [decNext, h]

/-- Where the decoder latches no error its staging buffer grows by what the character stages. -/
theorem decNext_stage {c : Byte} {d : DecState} (h : (decNext c d).err = false) :
    (decNext c d).stage = d.stage ++ decStages c d := by
  revert h
  unfold decNext
  cases he : d.err with
  | true => simp [he]
  | false =>
    cases hk : classify c with
    | invalid => simp [DecState.latchError]
    | pad =>
      cases hc : d.closed with
      | true => simp [DecState.latchError]
      | false =>
        obtain hp | hp | hp | hp := pos_cases d.pos <;>
          simp [hp, he, hc, hk, DecState.latchError, DecState.padThird, decStages]
    | data v =>
      cases hc : d.closed with
      | true => simp [DecState.latchError]
      | false =>
        cases h3 : d.pad3 with
        | true => simp [DecState.latchError]
        | false =>
          obtain hp | hp | hp | hp := pos_cases d.pos <;>
            simp [hp, he, hc, hk, h3, decStages]

end Sys2Proof.Machine
end

