-- ==== Sys2Proof/Laws/Reference.lean ====
section
/-! SUPPORT. `ENCODE` and `DECODE` group by group: the equations that let a proof go down a message three bytes or four
characters at a time. -/

namespace Sys2Proof.Machine

/-- Induction three bytes at a time. -/
theorem list_three_induction {α : Type} {P : List α → Prop} (nil : P []) (one : ∀ a, P [a]) (two : ∀ a b, P [a, b])
    (group : ∀ a b c rest, P rest → P (a :: b :: c :: rest)) : ∀ l, P l
  | [] => nil
  | [a] => one a
  | [a, b] => two a b
  | a :: b :: c :: rest => group a b c rest (list_three_induction nil one two group rest)

/-- Induction four characters at a time. -/
theorem list_four_induction {α : Type} {P : List α → Prop} (nil : P []) (one : ∀ a, P [a]) (two : ∀ a b, P [a, b])
    (three : ∀ a b c, P [a, b, c]) (group : ∀ a b c d rest, P rest → P (a :: b :: c :: d :: rest)) : ∀ l, P l
  | [] => nil
  | [a] => one a
  | [a, b] => two a b
  | [a, b, c] => three a b c
  | a :: b :: c :: d :: rest => group a b c d rest (list_four_induction nil one two three group rest)

/-! ### `ENCODE` -/

theorem encodeRef_nil : encodeRef [] = [] := rfl

theorem encodeRef_one (a : Byte) : encodeRef [a] = tailChars1 (groupOfBytes a 0 0) := by
  simp [encodeRef, encodeTail]

theorem encodeRef_two (a b : Byte) : encodeRef [a, b] = tailChars2 (groupOfBytes a b 0) := by
  simp [encodeRef, encodeTail]

theorem encodeGroup_succ (a b c : Byte) (rest : List Byte) (k : Nat) :
    encodeGroup (a :: b :: c :: rest) (k + 1) = encodeGroup rest k := by
  simp [encodeGroup, Nat.mul_add]

theorem encodeTail_cons (a b c : Byte) (rest : List Byte) : encodeTail (a :: b :: c :: rest) = encodeTail rest := by
  have hl : (a :: b :: c :: rest).length = rest.length + 3 := rfl
  unfold encodeTail
  simp only [hl, Nat.add_mod_right]
  by_cases h0 : rest.length % 3 = 0
  · simp [h0]
  · have e1 : rest.length + 3 - 1 = (rest.length - 1) + 3 := by omega
    by_cases h1 : rest.length % 3 = 1
    · simp [h1, e1]
    · have e2 : rest.length + 3 - 2 = (rest.length - 2) + 3 := by omega
      simp [h0, h1, e1, e2]

theorem encodeRef_group (a b c : Byte) (rest : List Byte) :
    encodeRef (a :: b :: c :: rest) = groupChars (groupOfBytes a b c) ++ encodeRef rest := by
  have hl : (a :: b :: c :: rest).length / 3 = rest.length / 3 + 1 := by simp; omega
  have h0 : encodeGroup (a :: b :: c :: rest) 0 = groupChars (groupOfBytes a b c) := rfl
  have hs : ∀ k, encodeGroup (a :: b :: c :: rest) (Nat.succ k) = encodeGroup rest k :=
    fun k => encodeGroup_succ a b c rest k
  unfold encodeRef
  rw [hl, encodeTail_cons, List.range_succ_eq_map, List.flatMap_cons, List.flatMap_map, h0, List.append_assoc]
  simp only [hs]

/-! ### The conditions of `DECODE` -/

theorem padRun_append (l : List Byte) (c : Byte) :
    padRun (l ++ [c]) = if c = padChar then padRun l + 1 else 0 := by
  by_cases h : c = padChar <;> simp [padRun, h]

/-- The last characters that are no pad stop the run. -/
theorem padRun_cons_of_ne {c : Byte} (h : c ≠ padChar) (l : List Byte) : padRun (c :: l) = padRun l := by
  induction l using List.reverseRecOn with
  | nil => simp [padRun, h]
  | append_singleton l d ih =>
    rw [← List.cons_append, padRun_append, padRun_append, ih]

/-- A pad before a character that is no pad is not in the run. -/
theorem padRun_le (l : List Byte) : padRun l ≤ l.length := by
  unfold padRun
  exact (List.takeWhile_sublist _).length_le.trans (by simp)

/-- A text ends in its run of pads. -/
theorem drop_padRun (l : List Byte) : l.drop (l.length - padRun l) = List.replicate (padRun l) padChar := by
  induction l using List.reverseRecOn with
  | nil => rfl
  | append_singleton l c ih =>
    rw [padRun_append]
    split
    · rename_i hc
      have := padRun_le l
      have e : (l ++ [c]).length - (padRun l + 1) = l.length - padRun l := by simp
      rw [e, List.drop_append_of_le_length (by omega), ih, hc, List.replicate_succ']
    · simp

/-- The four ways a text is malformed (R160, R161). -/
theorem malformed_iff (t : List Byte) :
    malformed t = true ↔ t.length % 4 ≠ 0 ∨ (∃ c ∈ t, classify c = .invalid) ∨ 2 < padRun t ∨
      ∃ c ∈ t.take (t.length - padRun t), classify c = .pad := by
  simp [malformed, or_assoc]

theorem malformed_of_invalid {t : List Byte} {c : Byte} (hc : c ∈ t) (h : classify c = .invalid) :
    malformed t = true := (malformed_iff t).2 (.inr (.inl ⟨c, hc, h⟩))

theorem malformed_of_length {t : List Byte} (h : t.length % 4 ≠ 0) : malformed t = true :=
  (malformed_iff t).2 (.inl h)

/-- A pad that is followed by a character that is no pad makes the text malformed. -/
theorem malformed_of_pad_before {l r : List Byte} {c : Byte} (hc : c ∈ r) (hne : c ≠ padChar) :
    malformed (l ++ padChar :: r) = true := by
  rw [malformed_iff]
  refine .inr (.inr (.inr ⟨padChar, ?_, classify_padChar⟩))
  have hlt : padRun (l ++ padChar :: r) ≤ r.length - 1 := by
    obtain ⟨r1, r2, rfl⟩ := List.append_of_mem hc
    have h2 : padRun (l ++ padChar :: (r1 ++ c :: r2)) ≤ r2.length := by
      have e : l ++ padChar :: (r1 ++ c :: r2) = (l ++ padChar :: r1) ++ c :: r2 := by simp
      rw [e]
      generalize l ++ padChar :: r1 = m
      induction r2 using List.reverseRecOn with
      | nil => rw [padRun_append, if_neg hne]; simp
      | append_singleton r2 d ih =>
        have e : m ++ c :: (r2 ++ [d]) = (m ++ c :: r2) ++ [d] := by simp
        rw [e, padRun_append]
        split
        · have := ih (by simp) (by simp)
          simp; omega
        · simp
    simp; omega
  have hr : 0 < r.length := List.length_pos_of_mem hc
  rw [List.take_append]
  apply List.mem_append_right
  have : (l ++ padChar :: r).length - padRun (l ++ padChar :: r) - l.length ≠ 0 := by simp; omega
  obtain ⟨k, hk⟩ := Nat.exists_eq_succ_of_ne_zero this
  rw [hk]; simp

/-- More than two pads at the end make the text malformed. -/
theorem malformed_of_pads {t : List Byte} (h : 2 < padRun t) : malformed t = true :=
  (malformed_iff t).2 (.inr (.inr (.inl h)))

theorem ne_padChar_of_data {c : Byte} {s : Sextet} (h : classify c = .data s) : c ≠ padChar := by
  rw [fwd_of_classify h]; exact fwd_ne_padChar s

/-- A group of four data characters at the front changes nothing in the conditions on the rest. -/
theorem malformed_group {a b c d : Byte} {s0 s1 s2 s3 : Sextet} (ha : classify a = .data s0)
    (hb : classify b = .data s1) (hc : classify c = .data s2) (hd : classify d = .data s3) (rest : List Byte) :
    malformed (a :: b :: c :: d :: rest) = malformed rest := by
  have hp : padRun (a :: b :: c :: d :: rest) = padRun rest := by
    rw [padRun_cons_of_ne (ne_padChar_of_data ha), padRun_cons_of_ne (ne_padChar_of_data hb),
      padRun_cons_of_ne (ne_padChar_of_data hc), padRun_cons_of_ne (ne_padChar_of_data hd)]
  have hl : (a :: b :: c :: d :: rest).length - padRun rest = (rest.length - padRun rest) + 4 := by
    have := padRun_le rest
    simp; omega
  have h4 : (a :: b :: c :: d :: rest).length % 4 = rest.length % 4 := by simp; omega
  rw [Bool.eq_iff_iff, malformed_iff, malformed_iff, hp, hl, h4]
  simp [ha, hb, hc, hd]

/-! ### `DECODE` -/

theorem decodeRef_nil : decodeRef [] = [] := rfl

theorem decodeRef_of_malformed {t : List Byte} (h : malformed t = true) : decodeRef t = [] := by
  simp [decodeRef, h]

theorem decodeGroup_succ (a b c d : Byte) (rest : List Byte) (p k : Nat) :
    decodeGroup (a :: b :: c :: d :: rest) p (k + 1) = decodeGroup rest p k := by
  have hl : (a :: b :: c :: d :: rest).length / 4 = rest.length / 4 + 1 := by simp; omega
  have hv : decodeGroupValue (a :: b :: c :: d :: rest) (k + 1) = decodeGroupValue rest k := by
    simp [decodeGroupValue, Nat.mul_add]
  simp only [decodeGroup, hl, hv, Nat.add_lt_add_iff_right]

/-- A group of four data characters gives its three bytes, then the rest. -/
theorem decodeRef_group {a b c d : Byte} {s0 s1 s2 s3 : Sextet} (ha : classify a = .data s0)
    (hb : classify b = .data s1) (hc : classify c = .data s2) (hd : classify d = .data s3) {rest : List Byte}
    (hm : malformed rest = false) :
    decodeRef (a :: b :: c :: d :: rest) = groupBytes3 (groupOfSextets s0 s1 s2 s3) ++ decodeRef rest := by
  have hp : padRun (a :: b :: c :: d :: rest) = padRun rest := by
    rw [padRun_cons_of_ne (ne_padChar_of_data ha), padRun_cons_of_ne (ne_padChar_of_data hb),
      padRun_cons_of_ne (ne_padChar_of_data hc), padRun_cons_of_ne (ne_padChar_of_data hd)]
  have hl : (a :: b :: c :: d :: rest).length / 4 = rest.length / 4 + 1 := by simp; omega
  have hv : decodeGroupValue (a :: b :: c :: d :: rest) 0 = groupOfSextets s0 s1 s2 s3 := by
    simp [decodeGroupValue, sextetOf, ha, hb, hc, hd]
  have hs : ∀ k, decodeGroup (a :: b :: c :: d :: rest) (padRun rest) (Nat.succ k) = decodeGroup rest (padRun rest) k :=
    fun k => decodeGroup_succ a b c d rest (padRun rest) k
  have h0 : decodeGroup (a :: b :: c :: d :: rest) (padRun rest) 0 = groupBytes3 (groupOfSextets s0 s1 s2 s3) := by
    unfold decodeGroup
    simp only [hv, hl]
    rw [if_pos]
    cases rest with
    | nil => right; rfl
    | cons x xs =>
      left
      have : (x :: xs).length % 4 = 0 := by
        by_contra h
        rw [malformed_of_length h] at hm; cases hm
      have : 0 < (x :: xs).length := by simp
      omega
  have hmm : malformed (a :: b :: c :: d :: rest) = false := by rw [malformed_group ha hb hc hd, hm]
  unfold decodeRef
  rw [if_neg (by simp), hmm, hp, hl, List.range_succ_eq_map, List.flatMap_cons, List.flatMap_map, h0]
  simp only [hs, Bool.false_eq_true, if_false]
  cases rest with
  | nil => rfl
  | cons x xs => simp [hm]

/-- A last group that ends in one pad gives two bytes. -/
theorem decodeRef_onePad (s0 s1 s2 : Sextet) :
    malformed [fwd s0, fwd s1, fwd s2, padChar] = false ∧
    decodeRef [fwd s0, fwd s1, fwd s2, padChar] = groupBytes2 (groupOfSextets s0 s1 s2 0) := by
  have hp : padRun [fwd s0, fwd s1, fwd s2, padChar] = 1 := by
    simp [padRun, fwd_ne_padChar]
  have hm : malformed [fwd s0, fwd s1, fwd s2, padChar] = false := by
    simp [malformed, hp]
  refine ⟨hm, ?_⟩
  unfold decodeRef
  rw [if_neg (by simp), hm, hp]
  simp [decodeGroup, decodeGroupValue]

/-- A last group that ends in two pads gives one byte. -/
theorem decodeRef_twoPads (s0 s1 : Sextet) :
    malformed [fwd s0, fwd s1, padChar, padChar] = false ∧
    decodeRef [fwd s0, fwd s1, padChar, padChar] = groupBytes1 (groupOfSextets s0 s1 0 0) := by
  have hp : padRun [fwd s0, fwd s1, padChar, padChar] = 2 := by
    simp [padRun, fwd_ne_padChar]
  have hm : malformed [fwd s0, fwd s1, padChar, padChar] = false := by
    simp [malformed, hp]
  refine ⟨hm, ?_⟩
  unfold decodeRef
  rw [if_neg (by simp), hm, hp]
  simp [decodeGroup, decodeGroupValue]

end Sys2Proof.Machine
end

