-- ==== Sys2Proof/Laws/Turn.lean ====
section
/-! SUPPORT. What a turn and a step can do, said once. -/

namespace Sys2Proof.Machine

/-! ### Decoding a head word -/

theorem decodeIw_enc_cases (w : PortWord) :
    (kind w = 0b00#2 ∧ decodeIw .enc w = .instr (.encData (payload w))) ∨
    (kind w = 0b01#2 ∧ decodeIw .enc w = .instr .encEnd) ∨
    (kind w ≠ 0b00#2 ∧ kind w ≠ 0b01#2 ∧ decodeIw .enc w = .reserved w) := by
  by_cases h0 : kind w = 0b00#2
  · exact .inl ⟨h0, by simp [decodeIw, h0]⟩
  · by_cases h1 : kind w = 0b01#2
    · exact .inr (.inl ⟨h1, by simp [decodeIw, h1]⟩)
    · exact .inr (.inr ⟨h0, h1, by simp [decodeIw, h0, h1]⟩)

theorem decodeIw_dec_cases (w : PortWord) :
    (kind w = 0b00#2 ∧ decodeIw .dec w = .instr (.decData (payload w))) ∨
    (kind w = 0b01#2 ∧ decodeIw .dec w = .instr .decEnd) ∨
    (kind w ≠ 0b00#2 ∧ kind w ≠ 0b01#2 ∧ decodeIw .dec w = .reserved w) := by
  by_cases h0 : kind w = 0b00#2
  · exact .inl ⟨h0, by simp [decodeIw, h0]⟩
  · by_cases h1 : kind w = 0b01#2
    · exact .inr (.inl ⟨h1, by simp [decodeIw, h1]⟩)
    · exact .inr (.inr ⟨h0, h1, by simp [decodeIw, h0, h1]⟩)

/-- A word that is not reserved has `KIND` 0b00 or 0b01. -/
theorem inputWordWf_iff (w : PortWord) : inputWordWf w = true ↔ kind w = 0b00#2 ∨ kind w = 0b01#2 := by
  revert w; decide

theorem endsMessage_iff (w : PortWord) : endsMessage w = true ↔ kind w = 0b01#2 := by
  simp [endsMessage]

/-! ### An engine's turn -/

/-- The three outcomes of a fetch. -/
theorem fetch_cases (e : Engine) (s : State) :
    (fetch e s = .waits ∧ (s.faultsOf e ≠ [] ∨ s.inputQueue e = [])) ∨
    ∃ w q, s.faultsOf e = [] ∧ s.inputQueue e = w :: q ∧
      ((fetch e s = .reserved w ∧ decodeIw e w = .reserved w) ∨
       ∃ i, fetch e s = .instr i ∧ decodeIw e w = .instr i) := by
  by_cases hf : s.faultsOf e = []
  · cases hq : s.inputQueue e with
    | nil => exact .inl ⟨by simp [fetch, hf, hq], .inr rfl⟩
    | cons w q =>
      refine .inr ⟨w, q, hf, rfl, ?_⟩
      cases e with
      | enc =>
        obtain ⟨-, h⟩ | ⟨-, h⟩ | ⟨-, -, h⟩ := decodeIw_enc_cases w
        · exact .inr ⟨_, by simp [fetch, hf, hq, h], h⟩
        · exact .inr ⟨_, by simp [fetch, hf, hq, h], h⟩
        · exact .inl ⟨by simp [fetch, hf, hq, h], h⟩
      | dec =>
        obtain ⟨-, h⟩ | ⟨-, h⟩ | ⟨-, -, h⟩ := decodeIw_dec_cases w
        · exact .inr ⟨_, by simp [fetch, hf, hq, h], h⟩
        · exact .inr ⟨_, by simp [fetch, hf, hq, h], h⟩
        · exact .inl ⟨by simp [fetch, hf, hq, h], h⟩
  · exact .inl ⟨by simp [fetch, hf], .inl hf⟩

/-- An engine with a head word and no fault runs the instruction the word decodes to. -/
theorem engineTurn_of_instr {e : Engine} {s : State} {w : PortWord} {q : List PortWord} {i : Instr}
    (hf : s.faultsOf e = []) (hq : s.inputQueue e = w :: q) (hd : decodeIw e w = .instr i) :
    engineTurn e s = exec i s := by
  simp [engineTurn, fetch, hf, hq, hd]

/-- An engine whose head word is reserved records the fault. -/
theorem engineTurn_of_reserved {e : Engine} {s : State} {w : PortWord} {q : List PortWord}
    (hf : s.faultsOf e = []) (hq : s.inputQueue e = w :: q) (hd : decodeIw e w = .reserved w) :
    engineTurn e s = .next (s.raiseFault e ⟨.reservedWord, w, none⟩) := by
  simp [engineTurn, fetch, hf, hq, hd]

/-- An engine with a fault, or with no word, waits. -/
theorem engineTurn_of_waits {e : Engine} {s : State} (h : s.faultsOf e ≠ [] ∨ s.inputQueue e = []) :
    engineTurn e s = .next s := by
  obtain h | h := h
  · simp [engineTurn, fetch, h]
  · by_cases hf : s.faultsOf e = [] <;> simp [engineTurn, fetch, h, hf]

/-- What `ENC`'s turn answers: it waits, it records a reserved word, or it runs one of its two instructions. -/
theorem engineTurn_enc_cases (s : State) :
    (engineTurn .enc s = .next s ∧ (s.encFaults ≠ [] ∨ s.encIq = [])) ∨
    ∃ w q, s.encFaults = [] ∧ s.encIq = w :: q ∧
      ((kind w ≠ 0b00#2 ∧ kind w ≠ 0b01#2 ∧
          engineTurn .enc s = .next (s.raiseFault .enc ⟨.reservedWord, w, none⟩)) ∨
       (kind w = 0b00#2 ∧ engineTurn .enc s = execEncData (payload w) s) ∨
       (kind w = 0b01#2 ∧ engineTurn .enc s = execEncEnd s)) := by
  obtain ⟨-, h⟩ | ⟨w, q, hf, hq, -⟩ := fetch_cases .enc s
  · exact .inl ⟨engineTurn_of_waits h, h⟩
  · refine .inr ⟨w, q, hf, hq, ?_⟩
    obtain ⟨hk, hd⟩ | ⟨hk, hd⟩ | ⟨h0, h1, hd⟩ := decodeIw_enc_cases w
    · exact .inr (.inl ⟨hk, by rw [engineTurn_of_instr hf hq hd]; rfl⟩)
    · exact .inr (.inr ⟨hk, by rw [engineTurn_of_instr hf hq hd]; rfl⟩)
    · exact .inl ⟨h0, h1, engineTurn_of_reserved hf hq hd⟩

/-- What `DEC`'s turn answers: it waits, it records a reserved word, or it runs one of its two instructions. -/
theorem engineTurn_dec_cases (s : State) :
    (engineTurn .dec s = .next s ∧ (s.decFaults ≠ [] ∨ s.decIq = [])) ∨
    ∃ w q, s.decFaults = [] ∧ s.decIq = w :: q ∧
      ((kind w ≠ 0b00#2 ∧ kind w ≠ 0b01#2 ∧
          engineTurn .dec s = .next (s.raiseFault .dec ⟨.reservedWord, w, none⟩)) ∨
       (kind w = 0b00#2 ∧ engineTurn .dec s = execDecData (payload w) s) ∨
       (kind w = 0b01#2 ∧ engineTurn .dec s = execDecEnd s)) := by
  obtain ⟨-, h⟩ | ⟨w, q, hf, hq, -⟩ := fetch_cases .dec s
  · exact .inl ⟨engineTurn_of_waits h, h⟩
  · refine .inr ⟨w, q, hf, hq, ?_⟩
    obtain ⟨hk, hd⟩ | ⟨hk, hd⟩ | ⟨h0, h1, hd⟩ := decodeIw_dec_cases w
    · exact .inr (.inl ⟨hk, by rw [engineTurn_of_instr hf hq hd]; rfl⟩)
    · exact .inr (.inr ⟨hk, by rw [engineTurn_of_instr hf hq hd]; rfl⟩)
    · exact .inl ⟨h0, h1, engineTurn_of_reserved hf hq hd⟩

/-! ### The shape of an engine's effect -/

/-- All an `ENC` turn can do to the state: the encoder's fields, its two queues and its faults, and nothing else. -/
theorem engineTurn_enc_frame {s t : State} (h : engineTurn .enc s = .next t) :
    t = { s with enc := t.enc, encIq := t.encIq, encOq := t.encOq, encFaults := t.encFaults } := by
  obtain ⟨hw, -⟩ | ⟨w, q, -, -, hc⟩ := engineTurn_enc_cases s
  · rw [hw] at h; cases h; rfl
  · obtain ⟨-, -, hr⟩ | ⟨-, hd⟩ | ⟨-, he⟩ := hc
    · rw [hr] at h; cases h; rfl
    · rw [hd] at h
      obtain ⟨-, rfl⟩ | ⟨-, rfl⟩ | ⟨-, rfl⟩ := execEncData_next h <;> rfl
    · rw [he] at h
      obtain ⟨-, rfl⟩ := execEncEnd_next h; rfl

/-- All a `DEC` turn can do to the state: the decoder's fields, its two queues and its faults, and nothing else. -/
theorem engineTurn_dec_frame {s t : State} (h : engineTurn .dec s = .next t) :
    t = { s with dec := t.dec, decIq := t.decIq, decOq := t.decOq, decFaults := t.decFaults } := by
  obtain ⟨hw, -⟩ | ⟨w, q, -, -, hc⟩ := engineTurn_dec_cases s
  · rw [hw] at h; cases h; rfl
  · obtain ⟨-, -, hr⟩ | ⟨-, hd⟩ | ⟨-, he⟩ := hc
    · rw [hr] at h; cases h; rfl
    · rw [hd] at h
      obtain ⟨rfl, -⟩ | ⟨rfl, -⟩ := execDecData_next h <;> rfl
    · rw [he, execDecEnd_eq] at h; cases h; rfl

/-- `DEC`'s turn answers a next state in every state. -/
theorem engineTurn_dec_complete (s : State) : ∃ t, engineTurn .dec s = .next t := by
  obtain ⟨hw, -⟩ | ⟨w, q, -, -, ⟨-, -, h⟩ | ⟨-, h⟩ | ⟨-, h⟩⟩ := engineTurn_dec_cases s
  · exact ⟨_, hw⟩
  · exact ⟨_, h⟩
  · exact ⟨_, h.trans (execDecData_eq _ _)⟩
  · exact ⟨_, h.trans (execDecEnd_eq _)⟩

/-- `ENC`'s turn answers a next state wherever `ENC_CNT` is at most 2. -/
theorem engineTurn_enc_complete {s : State} (hc : s.enc.cnt ≠ 3) : ∃ t, engineTurn .enc s = .next t := by
  obtain ⟨hw, -⟩ | ⟨w, q, -, -, ⟨-, -, h⟩ | ⟨-, h⟩ | ⟨-, h⟩⟩ := engineTurn_enc_cases s
  · exact ⟨_, hw⟩
  · exact ⟨_, h⟩
  · obtain ⟨t, ht⟩ := execEncData_complete hc (payload w)
    exact ⟨t, h.trans ht⟩
  · exact ⟨_, h.trans (execEncEnd_eq hc)⟩

/-! ### Turns and steps -/

theorem unlessReset_of_reset {s : State} (h : s.resetIn = true) (f : State → Answer) :
    unlessReset f s = .next s.resetAct := by simp [unlessReset, h]

theorem unlessReset_of_released {s : State} (h : s.resetIn = false) (f : State → Answer) :
    unlessReset f s = f s := by simp [unlessReset, h]

theorem popEncTurn_next {s t : State} (h : popEncTurn s = .next t) :
    ∃ w q, s.encOq = w :: q ∧ t = { s with encOq := q, encPopped := s.encPopped ++ [w] } := by
  unfold popEncTurn at h
  split at h
  · cases h
  · cases h; exact ⟨_, _, ‹_›, rfl⟩

theorem popDecTurn_next {s t : State} (h : popDecTurn s = .next t) :
    ∃ w q, s.decOq = w :: q ∧ t = { s with decOq := q, decPopped := s.decPopped ++ [w] } := by
  unfold popDecTurn at h
  split at h
  · cases h
  · cases h; exact ⟨_, _, ‹_›, rfl⟩

/-- All a turn can do: reset acts, the reset input moves, an engine steps, or the host moves one word. -/
theorem takeTurn_next {u : Turn} {s t : State} (h : takeTurn u s = .next t) :
    (s.resetIn = true ∧ t = s.resetAct) ∨
    (∃ a, u = .reset a ∧ t = s.driveReset a) ∨
    (s.resetIn = false ∧
      ((u = .enc ∧ engineTurn .enc s = .next t) ∨
       (u = .dec ∧ engineTurn .dec s = .next t) ∨
       (∃ w, u = .pushEnc w ∧ t = s.pushEnc w) ∨
       (∃ w, u = .pushDec w ∧ t = s.pushDec w) ∨
       (u = .popEnc ∧ ∃ w q, s.encOq = w :: q ∧ t = { s with encOq := q, encPopped := s.encPopped ++ [w] }) ∨
       (u = .popDec ∧ ∃ w q, s.decOq = w :: q ∧ t = { s with decOq := q, decPopped := s.decPopped ++ [w] }))) := by
  obtain hr | hr := Bool.eq_false_or_eq_true s.resetIn
  · cases u with
    | reset a => cases h; exact .inr (.inl ⟨a, rfl, rfl⟩)
    | _ => rw [takeTurn, unlessReset_of_reset hr] at h; cases h; exact .inl ⟨hr, rfl⟩
  · cases u with
    | reset a => cases h; exact .inr (.inl ⟨a, rfl, rfl⟩)
    | enc => rw [takeTurn, unlessReset_of_released hr] at h; exact .inr (.inr ⟨hr, .inl ⟨rfl, h⟩⟩)
    | dec => rw [takeTurn, unlessReset_of_released hr] at h; exact .inr (.inr ⟨hr, .inr (.inl ⟨rfl, h⟩)⟩)
    | pushEnc w =>
      rw [takeTurn, unlessReset_of_released hr] at h; cases h
      exact .inr (.inr ⟨hr, .inr (.inr (.inl ⟨w, rfl, rfl⟩))⟩)
    | pushDec w =>
      rw [takeTurn, unlessReset_of_released hr] at h; cases h
      exact .inr (.inr ⟨hr, .inr (.inr (.inr (.inl ⟨w, rfl, rfl⟩)))⟩)
    | popEnc =>
      rw [takeTurn, unlessReset_of_released hr] at h
      exact .inr (.inr ⟨hr, .inr (.inr (.inr (.inr (.inl ⟨rfl, popEncTurn_next h⟩))))⟩)
    | popDec =>
      rw [takeTurn, unlessReset_of_released hr] at h
      exact .inr (.inr ⟨hr, .inr (.inr (.inr (.inr (.inr ⟨rfl, popDecTurn_next h⟩))))⟩)

/-- A step with nothing scheduled changes nothing; any other step is the head turn, taken off the schedule. -/
theorem step_next {s t : State} (h : step s = .next t) :
    (s.schedule = [] ∧ t = s) ∨
    ∃ u rest, s.schedule = u :: rest ∧ takeTurn u { s with schedule := rest } = .next t := by
  unfold step at h
  split at h
  · cases h; exact .inl ⟨‹_›, rfl⟩
  · exact .inr ⟨_, _, ‹_›, h⟩

theorem step_of_schedule {s : State} {u : Turn} {rest : List Turn} (h : s.schedule = u :: rest) :
    step s = takeTurn u { s with schedule := rest } := by
  unfold step
  rw [h]

/-- What is kept by every turn, whatever it is, and does not speak of the schedule, is kept by every step: the induction
over turns packaged once. -/
theorem step_keeps {P : State → Prop}
    (hsched : ∀ (s : State) (rest : List Turn), P s → P { s with schedule := rest })
    (hturn : ∀ (u : Turn) (s t : State), P s → takeTurn u s = .next t → P t)
    {s t : State} (hp : P s) (h : step s = .next t) : P t := by
  obtain ⟨-, rfl⟩ | ⟨u, rest, -, ht⟩ := step_next h
  · exact hp
  · exact hturn u _ t (hsched s rest hp) ht

/-- An engine's own turn, with reset released, is its step. -/
theorem takeTurn_own {e : Engine} {s : State} (h : s.resetIn = false) : takeTurn (engineOwnTurn e) s = engineTurn e s := by
  cases e <;> exact unlessReset_of_released h _

/-! ### The fault record only grows -/

theorem mem_addFault {f g : FaultEntry} {fs : List FaultEntry} (h : f ∈ fs) : f ∈ addFault fs g := by
  unfold addFault; split <;> simp [h]

theorem addFault_ne_nil (fs f) : addFault fs f ≠ [] := by
  unfold addFault; split
  · intro h; rename_i hm; rw [h] at hm; simp at hm
  · simp

/-! ### What an engine's turn reads -/

/-- An `ENC` turn reads only the encoder's share of the state, and does the same to any state with that share. -/
theorem enc_transplant {s s' t : State} (hs : s.SameEncoder s') (h : engineTurn .enc s = .next t) :
    engineTurn .enc s' = .next { s' with enc := t.enc, encIq := t.encIq, encOq := t.encOq, encFaults := t.encFaults } := by
  obtain ⟨e1, e2, e3, e4⟩ := hs
  obtain ⟨hw, hx⟩ | ⟨w, q, hf, hq, hc⟩ := engineTurn_enc_cases s
  · rw [hw] at h; cases h
    rw [e1, e2, e3, e4]
    rw [e2, e4] at hx
    exact engineTurn_of_waits (e := .enc) hx
  · obtain ⟨hk0, hk1, hr⟩ | ⟨hk, hd⟩ | ⟨hk, he⟩ := hc
    · rw [hr] at h; cases h
      refine (engineTurn_of_reserved (e := .enc) (s := s') (e4.symm.trans hf) (e2.symm.trans hq) (by simp [decodeIw, hk0, hk1])).trans ?_
      simp [State.raiseFault, e1, e2, e3, e4]
    · rw [hd] at h
      refine (engineTurn_of_instr (e := .enc) (s := s') (e4.symm.trans hf) (e2.symm.trans hq) (i := .encData (payload w)) (by simp [decodeIw, hk])).trans ?_
      obtain ⟨hc, rfl⟩ | ⟨hc, rfl⟩ | ⟨hc, rfl⟩ := execEncData_next h <;> simp [exec, execEncData, ← e1, hc, ← e2, ← e3, ← e4, State.takeEnc, State.setEnc, State.emitEnc]
    · rw [he] at h
      refine (engineTurn_of_instr (e := .enc) (s := s') (e4.symm.trans hf) (e2.symm.trans hq) (i := .encEnd) (by simp [decodeIw, hk])).trans ?_
      obtain ⟨hc, rfl⟩ := execEncEnd_next h
      rw [e1] at hc
      refine (execEncEnd_eq (s := s') hc).trans ?_
      simp [State.takeEnc, State.setEnc, State.emitEnc, e1, e2, e3, e4]

/-- A `DEC` turn reads only the decoder's share and the capacity, and does the same to any state with them. -/
theorem dec_transplant {s s' t : State} (hs : s.SameDecoder s') (hcfg : s.cfg = s'.cfg) (h : engineTurn .dec s = .next t) :
    engineTurn .dec s' = .next { s' with dec := t.dec, decIq := t.decIq, decOq := t.decOq, decFaults := t.decFaults } := by
  obtain ⟨e1, e2, e3, e4⟩ := hs
  obtain ⟨hw, hx⟩ | ⟨w, q, hf, hq, hc⟩ := engineTurn_dec_cases s
  · rw [hw] at h; cases h
    rw [e1, e2, e3, e4]
    rw [e2, e4] at hx
    exact engineTurn_of_waits (e := .dec) hx
  · obtain ⟨hk0, hk1, hr⟩ | ⟨hk, hd⟩ | ⟨hk, he⟩ := hc
    · rw [hr] at h; cases h
      refine (engineTurn_of_reserved (e := .dec) (s := s') (e4.symm.trans hf) (e2.symm.trans hq) (by simp [decodeIw, hk0, hk1])).trans ?_
      simp [State.raiseFault, e1, e2, e3, e4]
    · rw [hd] at h
      refine (engineTurn_of_instr (e := .dec) (s := s') (e4.symm.trans hf) (e2.symm.trans hq) (i := .decData (payload w)) (by simp [decodeIw, hk])).trans ?_
      show execDecData _ _ = _
      rw [execDecData_eq] at h ⊢
      have hfit : ∀ n, s'.stageFits n = s.stageFits n := by
        intro n; simp [State.stageFits, hcfg, e1]
      simp only [hfit, ← e1]
      cases h
      split <;> simp [State.raiseFault, State.takeDec, State.setDec, e1, e2, e3, e4]
    · rw [he] at h
      refine (engineTurn_of_instr (e := .dec) (s := s') (e4.symm.trans hf) (e2.symm.trans hq) (i := .decEnd) (by simp [decodeIw, hk])).trans ?_
      rw [execDecEnd_eq] at h
      cases h
      refine (execDecEnd_eq s').trans ?_
      simp [State.decFinish, State.takeDec, State.setDec, State.emitDec, e1, e2, e3, e4]

/-- A turn neither reads nor writes the schedule. -/
theorem takeTurn_schedule (u : Turn) (s : State) (sc : List Turn) :
    takeTurn u { s with schedule := sc } =
      (match takeTurn u s with
        | .next t => .next { t with schedule := sc }
        | .fault r => .fault r
        | .refused r => .refused r) := by
  cases u with
  | reset a => cases a <;> rfl
  | pushEnc w => simp only [takeTurn, unlessReset]; split <;> rfl
  | pushDec w => simp only [takeTurn, unlessReset]; split <;> rfl
  | popEnc => simp only [takeTurn, unlessReset, popEncTurn]; split <;> (try rfl); cases s.encOq <;> rfl
  | popDec => simp only [takeTurn, unlessReset, popDecTurn]; split <;> (try rfl); cases s.decOq <;> rfl
  | enc =>
    simp only [takeTurn, unlessReset]
    split
    · rfl
    · have hf : fetch .enc { s with schedule := sc } = fetch .enc s := rfl
      simp only [engineTurn, hf]
      cases fetch .enc s with
      | waits => rfl
      | reserved w => rfl
      | instr i =>
        cases i with
        | encData b => simp only [exec, execEncData]; split <;> (try rfl); split <;> (try rfl); split <;> rfl
        | encEnd => simp only [exec, execEncEnd]; split <;> (try rfl); split <;> (try rfl); split <;> rfl
        | decData c =>
          simp only [exec]; rw [execDecData_eq, execDecData_eq]
          have hfit : ∀ n, ({ s with schedule := sc } : State).stageFits n = s.stageFits n := fun n => rfl
          simp only [hfit]
          split <;> rfl
        | decEnd => rfl
  | dec =>
    simp only [takeTurn, unlessReset]
    split
    · rfl
    · have hf : fetch .dec { s with schedule := sc } = fetch .dec s := rfl
      simp only [engineTurn, hf]
      cases fetch .dec s with
      | waits => rfl
      | reserved w => rfl
      | instr i =>
        cases i with
        | encData b => simp only [exec, execEncData]; split <;> (try rfl); split <;> (try rfl); split <;> rfl
        | encEnd => simp only [exec, execEncEnd]; split <;> (try rfl); split <;> (try rfl); split <;> rfl
        | decData c =>
          simp only [exec]; rw [execDecData_eq, execDecData_eq]
          have hfit : ∀ n, ({ s with schedule := sc } : State).stageFits n = s.stageFits n := fun n => rfl
          simp only [hfit]
          split <;> rfl
        | decEnd => rfl

end Sys2Proof.Machine
end

