-- ==== Sys2Proof/Laws/Message.lean ====
section
/-! SUPPORT. Runs: of instructions, group by group and through the decoder's pure function; of turns, one after another. -/

namespace Sys2Proof.Machine

/-! ### Running a list -/

@[simp] theorem runInstrs_nil (s : State) : runInstrs [] s = .next s := rfl

theorem runInstrs_cons_of_next {i : Instr} {s t : State} (h : exec i s = .next t) (is : List Instr) :
    runInstrs (i :: is) s = runInstrs is t := by
  simp [runInstrs, h]

theorem runInstrs_append {is js : List Instr} {s t : State} (h : runInstrs is s = .next t) :
    runInstrs (is ++ js) s = runInstrs js t := by
  induction is generalizing s with
  | nil => cases h; rfl
  | cons i is ih =>
    rw [runInstrs] at h
    rw [List.cons_append, runInstrs]
    split at h
    · exact ih h
    · cases h
    · cases h

@[simp] theorem runTurns_nil (s : State) : runTurns [] s = .next s := rfl

theorem runTurns_cons_of_next {u : Turn} {s t : State} (h : takeTurn u s = .next t) (us : List Turn) :
    runTurns (u :: us) s = runTurns us t := by
  simp [runTurns, h]

/-- A run of turns that answers a next state took its first turn to one. -/
theorem runTurns_cons_next {u : Turn} {us : List Turn} {s t : State} (h : runTurns (u :: us) s = .next t) :
    ∃ m, takeTurn u s = .next m ∧ runTurns us m = .next t := by
  rw [runTurns] at h
  split at h
  · exact ⟨_, ‹_›, h⟩
  · cases h
  · cases h

theorem runTurns_append {us vs : List Turn} {s t : State} (h : runTurns us s = .next t) :
    runTurns (us ++ vs) s = runTurns vs t := by
  induction us generalizing s with
  | nil => cases h; rfl
  | cons u us ih =>
    obtain ⟨m, hm, hr⟩ := runTurns_cons_next h
    rw [List.cons_append, runTurns_cons_of_next hm, ih hr]

/-! ### The encoder's bytes -/

/-- One byte into an idle encoder. -/
theorem exec_encData_idle {s : State} (h : s.enc = EncState.idle) (b : Byte) :
    exec (.encData b) s = .next (s.takeEnc.setEnc ⟨1, holdOf b 0x00⟩) := by
  simp [exec, execEncData, h, EncState.idle]

/-- A second byte. -/
theorem exec_encData_second {s : State} {a : Byte} (h : s.enc = ⟨1, holdOf a 0x00⟩) (b : Byte) :
    exec (.encData b) s = .next (s.takeEnc.setEnc ⟨2, holdOf a b⟩) := by
  simp [exec, execEncData, h]

/-- A third byte emits the group and leaves the encoder idle. -/
theorem exec_encData_third {s : State} {a b : Byte} (h : s.enc = ⟨2, holdOf a b⟩) (c : Byte) :
    exec (.encData c) s = .next
      ((s.takeEnc.emitEnc ((groupChars (groupOfBytes a b c)).map dataWord)).setEnc EncState.idle) := by
  simp [exec, execEncData, h]

/-- Three bytes from the idle state: the group's four characters, and idle again (R139, R140). -/
theorem runInstrs_encGroup {s : State} (h : s.enc = EncState.idle) (a b c : Byte) (is : List Instr) :
    runInstrs (.encData a :: .encData b :: .encData c :: is) s =
      runInstrs is { s with
        encIq := s.encIq.drop 3
        encOq := s.encOq ++ (groupChars (groupOfBytes a b c)).map dataWord } := by
  rw [runInstrs_cons_of_next (exec_encData_idle h a), runInstrs_cons_of_next (exec_encData_second rfl b),
    runInstrs_cons_of_next (exec_encData_third rfl c)]
  congr 1
  cases s
  simp only at h
  subst h
  simp [State.takeEnc, State.setEnc, State.emitEnc, ← List.drop_one]

/-! ### The decoder's characters -/

/-- The decoder's fields after the characters of a text, when the staging buffer has room for all of it. -/
def decFold (t : List Byte) (d : DecState) : DecState := t.foldl (fun d c => decNext c d) d

@[simp] theorem decFold_nil (d : DecState) : decFold [] d = d := rfl

@[simp] theorem decFold_cons (c : Byte) (t : List Byte) (d : DecState) :
    decFold (c :: t) d = decFold t (decNext c d) := rfl

/-- Once latched, the decoder changes nothing more (R169). -/
theorem decFold_of_err {d : DecState} (h : d.err = true) (t : List Byte) : decFold t d = d := by
  induction t with
  | nil => rfl
  | cons c t ih => rw [decFold_cons, decNext_of_err h, ih]

/-- An open decoder at the start of a group, with these bytes staged. -/
def DecState.openAt (st : List Byte) : DecState := { DecState.idle with stage := st }

/-- A decoder whose last group ended in padding, with these bytes staged. -/
def DecState.closedAt (st : List Byte) : DecState := { DecState.idle with stage := st, closed := true }

/-- The latched decoder (R167). -/
def DecState.latched : DecState := { DecState.idle with err := true }

theorem decNext_closedAt (c : Byte) (st : List Byte) : decNext c (DecState.closedAt st) = DecState.latched := by
  simp only [decNext, DecState.closedAt, DecState.idle]
  cases classify c <;> simp [DecState.latchError, DecState.latched, DecState.idle]

theorem decFold_closedAt {t : List Byte} (h : t ≠ []) (st : List Byte) :
    decFold t (DecState.closedAt st) = DecState.latched := by
  cases t with
  | nil => exact absurd rfl h
  | cons c t => rw [decFold_cons, decNext_closedAt, decFold_of_err rfl]

/-- A group of four data characters stages its three bytes (R165). -/
theorem decFold_group (s0 s1 s2 s3 : Sextet) (rest st : List Byte) :
    decFold (fwd s0 :: fwd s1 :: fwd s2 :: fwd s3 :: rest) (DecState.openAt st) =
      decFold rest (DecState.openAt (st ++ groupBytes3 (groupOfSextets s0 s1 s2 s3))) := by
  simp [decNext, decStages, DecState.openAt, DecState.idle, DecState.nextGroup]

/-- A group of three data characters and a pad stages two bytes and closes the message (R165). -/
theorem decFold_onePad (s0 s1 s2 : Sextet) (rest st : List Byte) :
    decFold (fwd s0 :: fwd s1 :: fwd s2 :: padChar :: rest) (DecState.openAt st) =
      decFold rest (DecState.closedAt (st ++ groupBytes2 (groupOfSextets s0 s1 s2 0))) := by
  simp [decNext, decStages, DecState.openAt, DecState.closedAt, DecState.idle, DecState.closeGroup]

/-- A group of two data characters and two pads stages one byte and closes the message (R165). -/
theorem decFold_twoPads (s0 s1 : Sextet) (rest st : List Byte) :
    decFold (fwd s0 :: fwd s1 :: padChar :: padChar :: rest) (DecState.openAt st) =
      decFold rest (DecState.closedAt (st ++ groupBytes1 (groupOfSextets s0 s1 0 0))) := by
  simp [decNext, decStages, DecState.openAt, DecState.closedAt, DecState.idle, DecState.closeGroup, DecState.padThird]

/-- The ways a group of four characters can go: data; one pad; two pads; an error with a malformed text. -/
theorem group_cases (a b c d : Byte) (rest st : List Byte) :
    (∃ s0 s1 s2 s3, a = fwd s0 ∧ b = fwd s1 ∧ c = fwd s2 ∧ d = fwd s3) ∨
    (∃ s0 s1 s2, a = fwd s0 ∧ b = fwd s1 ∧ c = fwd s2 ∧ d = padChar) ∨
    (∃ s0 s1, a = fwd s0 ∧ b = fwd s1 ∧ c = padChar ∧ d = padChar) ∨
    (decFold (a :: b :: c :: d :: rest) (DecState.openAt st) = DecState.latched ∧
      malformed (a :: b :: c :: d :: rest) = true) := by
  have hpads : ∀ (l r : List Byte), 2 ≤ r.length → malformed (l ++ padChar :: r) = true := by
    intro l r hr
    by_cases h : ∃ x ∈ r, x ≠ padChar
    · obtain ⟨x, hx, hne⟩ := h
      exact malformed_of_pad_before hx hne
    · have hall : r = List.replicate r.length padChar :=
        List.eq_replicate_iff.2 ⟨rfl, fun x hx => by by_contra hne; exact h ⟨x, hx, hne⟩⟩
      apply malformed_of_pads
      rw [hall]
      generalize r.length = n at hr
      obtain ⟨k, rfl⟩ := Nat.exists_eq_add_of_le' hr
      have e : l ++ padChar :: List.replicate (k + 2) padChar = l ++ List.replicate k padChar ++ [padChar] ++ [padChar] ++ [padChar] := by
        simp [List.replicate_succ']
        rw [← List.cons_append, ← List.replicate_succ, List.replicate_succ', List.append_assoc]; rfl
      rw [e, padRun_append, padRun_append, padRun_append]; simp
  have lat : ∀ (x : Byte) (e : DecState), e.err = false → classify x = .invalid →
      decNext x e = DecState.latched := by
    intro x e he hx; simp [decNext, he, hx, DecState.latchError, DecState.latched]
  obtain ⟨s0, ha, rfl⟩ | ⟨ha, rfl⟩ | ha := classify_cases a
  · obtain ⟨s1, hb, rfl⟩ | ⟨hb, rfl⟩ | hb := classify_cases b
    · obtain ⟨s2, hc, rfl⟩ | ⟨hc, rfl⟩ | hc := classify_cases c
      · obtain ⟨s3, hd, rfl⟩ | ⟨hd, rfl⟩ | hd := classify_cases d
        · exact .inl ⟨s0, s1, s2, s3, rfl, rfl, rfl, rfl⟩
        · exact .inr (.inl ⟨s0, s1, s2, rfl, rfl, rfl, rfl⟩)
        · refine .inr (.inr (.inr ⟨?_, malformed_of_invalid (by simp) hd⟩))
          simp only [decFold_cons]
          rw [lat d _ ?_ hd, decFold_of_err rfl]
          simp [decNext, DecState.openAt, DecState.idle]
      · by_cases hd : d = padChar
        · exact .inr (.inr (.inl ⟨s0, s1, rfl, rfl, rfl, hd⟩))
        · refine .inr (.inr (.inr ⟨?_, malformed_of_pad_before (l := [fwd s0, fwd s1]) (r := d :: rest)
            (List.mem_cons_self) hd⟩))
          simp only [decFold_cons]
          have : decNext d (decNext padChar (decNext (fwd s1) (decNext (fwd s0) (DecState.openAt st)))) =
              DecState.latched := by
            obtain ⟨s3, hd', -⟩ | ⟨-, hd'⟩ | hd' := classify_cases d
            · simp [decNext, hd', DecState.openAt, DecState.idle, DecState.padThird, DecState.latchError,
                DecState.latched]
            · exact absurd hd' hd
            · simp [decNext, hd', DecState.openAt, DecState.idle, DecState.padThird, DecState.latchError,
                DecState.latched]
          rw [this, decFold_of_err rfl]
      · refine .inr (.inr (.inr ⟨?_, malformed_of_invalid (by simp) hc⟩))
        simp only [decFold_cons]
        rw [lat c _ ?_ hc, decNext_of_err rfl, decFold_of_err rfl]
        simp [decNext, DecState.openAt, DecState.idle]
    · refine .inr (.inr (.inr ⟨?_, hpads [fwd s0] (c :: d :: rest) (by simp)⟩))
      have : decNext padChar (decNext (fwd s0) (DecState.openAt st)) = DecState.latched := by
        simp [decNext, DecState.openAt, DecState.idle, DecState.latchError, DecState.latched]
      simp only [decFold_cons]
      rw [this, decNext_of_err rfl, decNext_of_err rfl, decFold_of_err rfl]
    · refine .inr (.inr (.inr ⟨?_, malformed_of_invalid (by simp) hb⟩))
      simp only [decFold_cons]
      rw [lat b _ ?_ hb, decNext_of_err rfl, decNext_of_err rfl, decFold_of_err rfl]
      simp [decNext, DecState.openAt, DecState.idle]
  · refine .inr (.inr (.inr ⟨?_, hpads [] (b :: c :: d :: rest) (by simp)⟩))
    have : decNext padChar (DecState.openAt st) = DecState.latched := by
      simp [decNext, DecState.openAt, DecState.idle, DecState.latchError, DecState.latched]
    simp only [decFold_cons]
    rw [this, decNext_of_err rfl, decNext_of_err rfl, decNext_of_err rfl, decFold_of_err rfl]
  · refine .inr (.inr (.inr ⟨?_, malformed_of_invalid (by simp) ha⟩))
    simp only [decFold_cons]
    rw [lat a _ rfl ha, decNext_of_err rfl, decNext_of_err rfl, decNext_of_err rfl, decFold_of_err rfl]

/-! ### The decoder's run, with room in the staging buffer -/

/-- One character adds at most one to the position, and the three bytes of a group stand for four characters: the count
`4 * len(DEC_STAGE) + 3 * DEC_POS` grows by at most 3 a character (R170). -/
theorem decNext_count (c : Byte) (d : DecState) :
    4 * (decNext c d).stage.length + 3 * (decNext c d).pos.toNat ≤ 4 * d.stage.length + 3 * d.pos.toNat + 3 := by
  unfold decNext
  cases he : d.err with
  | true => simp
  | false =>
    cases hk : classify c with
    | invalid => simp [DecState.latchError, DecState.idle]
    | pad =>
      cases hc : d.closed with
      | true => simp [DecState.latchError, DecState.idle]
      | false =>
        obtain hp | hp | hp | hp := pos_cases d.pos
        · simp [hp, DecState.latchError, DecState.idle]
        · simp [hp, DecState.latchError, DecState.idle]
        · simp [hp, DecState.padThird]
        · cases h3 : d.pad3 <;>
            simp [hp, he, hc, hk, h3, decStages, DecState.closeGroup, groupBytes1, groupBytes2] <;> omega
    | data v =>
      cases hc : d.closed with
      | true => simp [DecState.latchError, DecState.idle]
      | false =>
        cases h3 : d.pad3 with
        | true => simp [DecState.latchError, DecState.idle]
        | false =>
          obtain hp | hp | hp | hp := pos_cases d.pos
          · simp [hp]
          · simp [hp]
          · simp [hp]
          · simp [hp, he, hc, hk, h3, decStages, DecState.nextGroup, groupBytes3]; omega

/-- A character stages at most three bytes, and none but at position 3. -/
theorem decStages_length (c : Byte) (d : DecState) :
    decStages c d = [] ∨ ((decStages c d).length ≤ 3 ∧ d.pos = 3) := by
  unfold decStages
  split
  · exact .inl rfl
  · split
    · exact .inl rfl
    · split
      · split
        · exact .inr ⟨by simp [groupBytes1], ‹_›⟩
        · exact .inr ⟨by simp [groupBytes2], ‹_›⟩
      · exact .inl rfl
    · split
      · rename_i h; exact .inr ⟨by simp [groupBytes3], h.1⟩
      · exact .inl rfl

/-- The text still to come fits: the count so far and 3 for each character to come stay within `12 * (cap div 3)`. -/
def State.roomFor (s : State) (k : Nat) : Prop :=
  ∀ cap, s.cfg.decStageCap = some cap → 4 * s.dec.stage.length + 3 * s.dec.pos.toNat + 3 * k ≤ 12 * (cap / 3)

theorem State.roomFor_of_messageFits {s : State} {n : Nat} (hd : s.dec = DecState.idle)
    (h : s.messageFits n = true) : s.roomFor n := by
  intro cap hc
  have : n ≤ 4 * (cap / 3) := by simpa [State.messageFits, hc] using h
  simp [hd, DecState.idle]; omega

/-- A text there is room for is taken character by character, with no fault (R170). -/
theorem runInstrs_decData {t : List Byte} {s : State} (h : s.roomFor t.length) :
    runInstrs (t.map Instr.decData) s =
      .next { s with decIq := s.decIq.drop t.length, dec := decFold t s.dec } := by
  induction t generalizing s with
  | nil => rfl
  | cons c t ih =>
    have hx : exec (.decData c) s = .next (s.takeDec.setDec (decNext c s.dec)) := by
      show execDecData c s = _
      obtain h0 | ⟨h3, hp⟩ := decStages_length c s.dec
      · rw [execDecData_eq, if_neg (by simp [h0])]
      · apply execDecData_of_fits
        cases hc : s.cfg.decStageCap with
        | none => exact State.stageFits_of_none hc _
        | some cap =>
          rw [State.stageFits_of_some hc]
          have := h cap hc
          rw [hp] at this
          simp at this
          omega
    rw [List.map_cons, runInstrs_cons_of_next hx, ih]
    · congr 1
      simp [State.takeDec, State.setDec]
    · intro cap hc
      have h1 := h cap hc
      have h2 := decNext_count c s.dec
      simp at h1 ⊢
      omega

/-! ### A message's bytes through the encoder -/

/-- The bytes of a message: each complete group's characters are out, and the encoder's fields hold the rest (R139). -/
theorem runInstrs_encData (b : List Byte) : ∀ (s : State), s.enc = EncState.idle →
    ∃ e, runInstrs (b.map Instr.encData) s =
      .next { s with enc := e, encIq := s.encIq.drop b.length, encOq := s.encOq ++ ((encodeRef b).take (4 * (b.length / 3))).map dataWord } ∧
      e.cnt = BitVec.ofNat 2 (b.length % 3) ∧ endTail e = (encodeRef b).drop (4 * (b.length / 3)) ∧ e.cnt ≠ 3 := by
  induction b using list_three_induction with
  | nil => intro s h; refine ⟨s.enc, ?_, ?_, ?_, ?_⟩ <;> rw [h] <;> simp [encodeRef_nil, EncState.idle, endTail]; cases s; simp_all [EncState.idle]
  | one a =>
    intro s h
    refine ⟨⟨1, holdOf a 0⟩, ?_, rfl, ?_, (by decide : ((1:BitVec 2) ≠ 3))⟩
    · rw [List.map_cons, runInstrs_cons_of_next (exec_encData_idle h a)]
      simp [State.takeEnc, State.setEnc]
    · rw [encodeRef_one]; simp [endTail]
  | two a b =>
    intro s h
    refine ⟨⟨2, holdOf a b⟩, ?_, rfl, ?_, (by decide : ((2:BitVec 2) ≠ 3))⟩
    · rw [List.map_cons, List.map_cons, runInstrs_cons_of_next (exec_encData_idle h a), runInstrs_cons_of_next (exec_encData_second rfl b)]
      simp [State.takeEnc, State.setEnc, ← List.drop_one]
    · rw [encodeRef_two]; simp [endTail]
  | group a b c rest ih =>
    intro s h
    obtain ⟨e, h1, h2, h3, h4⟩ := ih { s with
        encIq := s.encIq.drop 3
        encOq := s.encOq ++ (groupChars (groupOfBytes a b c)).map dataWord } h
    refine ⟨e, ?_, ?_, ?_, h4⟩
    · rw [List.map_cons, List.map_cons, List.map_cons, runInstrs_encGroup h, h1]
      have e1 : 4 * ((a :: b :: c :: rest).length / 3) = 4 + 4 * (rest.length / 3) := by simp; omega
      have e2 : (groupChars (groupOfBytes a b c)).length = 4 := rfl
      have e3 : (a :: b :: c :: rest).length = 3 + rest.length := by simp; omega
      have e4 : (groupChars (groupOfBytes a b c)).take (4 + 4 * (rest.length / 3)) = groupChars (groupOfBytes a b c) :=
        List.take_of_length_le (by rw [e2]; omega)
      rw [encodeRef_group, e1, List.take_append, e2, e3, e4, Nat.add_sub_cancel_left, List.map_append]
      simp
    · rw [h2]; congr 1; simp; omega
    · have e1 : 4 * ((a :: b :: c :: rest).length / 3) = 4 + 4 * (rest.length / 3) := by simp; omega
      have e2 : (groupChars (groupOfBytes a b c)).length = 4 := rfl
      rw [h3, encodeRef_group, e1, List.drop_append, e2]
      simp [groupChars]

/-! ### A message's characters through the decoder -/

/-- What a whole text leaves staged if it is valid: what was staged before it, then `DECODE` of it (R165, R175). -/
theorem decFold_result (t : List Byte) : ∀ st : List Byte,
    (if (decFold t (DecState.openAt st)).valid then (decFold t (DecState.openAt st)).stage else []) =
      (if malformed t then [] else st ++ decodeRef t) := by
  induction t using list_four_induction with
  | nil => intro st; simp [DecState.openAt, DecState.valid, DecState.idle, decodeRef_nil]; intro h; exact absurd h (by decide)
  | one a =>
    intro st
    rw [if_pos (malformed_of_length (by simp))]
    obtain ⟨s, -, rfl⟩ | ⟨-, rfl⟩ | h := classify_cases a <;>
      simp [decNext, DecState.openAt, DecState.valid, DecState.idle, DecState.latchError, *]
  | two a b =>
    intro st
    rw [if_pos (malformed_of_length (by simp))]
    obtain ⟨s, -, rfl⟩ | ⟨-, rfl⟩ | h := classify_cases a <;> obtain ⟨s', -, rfl⟩ | ⟨-, rfl⟩ | h' := classify_cases b <;>
      simp [decNext, DecState.openAt, DecState.valid, DecState.idle, DecState.latchError, *]
  | three a b c =>
    intro st
    rw [if_pos (malformed_of_length (by simp))]
    obtain ⟨s, -, rfl⟩ | ⟨-, rfl⟩ | h := classify_cases a <;> obtain ⟨s', -, rfl⟩ | ⟨-, rfl⟩ | h' := classify_cases b <;>
    obtain ⟨s'', -, rfl⟩ | ⟨-, rfl⟩ | h'' := classify_cases c <;>
      simp [decNext, DecState.openAt, DecState.valid, DecState.idle, DecState.latchError, DecState.padThird, *]
  | group a b c d rest ih =>
    intro st
    obtain ⟨s0, s1, s2, s3, rfl, rfl, rfl, rfl⟩ | ⟨s0, s1, s2, rfl, rfl, rfl, rfl⟩ | ⟨s0, s1, rfl, rfl, rfl, rfl⟩ | ⟨h1, h2⟩ :=
      group_cases a b c d rest st
    · rw [decFold_group, ih, malformed_group (classify_fwd _) (classify_fwd _) (classify_fwd _) (classify_fwd _)]
      cases hm : malformed rest with
      | true => simp
      | false => rw [decodeRef_group (classify_fwd _) (classify_fwd _) (classify_fwd _) (classify_fwd _) hm]; simp
    · rw [decFold_onePad]
      cases rest with
      | nil => rw [(decodeRef_onePad s0 s1 s2).1, (decodeRef_onePad s0 s1 s2).2]; simp [DecState.closedAt, DecState.valid, DecState.idle]
      | cons x xs =>
        rw [decFold_closedAt (by simp)]
        have : malformed (fwd s0 :: fwd s1 :: fwd s2 :: padChar :: x :: xs) = true := by
          by_contra hne
          have hm : malformed (fwd s0 :: fwd s1 :: fwd s2 :: padChar :: x :: xs) = false := by simpa using hne
          by_cases hx : ∃ y ∈ x :: xs, y ≠ padChar
          · obtain ⟨y, hy, hne⟩ := hx
            have := malformed_of_pad_before (l := [fwd s0, fwd s1, fwd s2]) hy hne
            rw [List.cons_append, List.cons_append, List.cons_append, List.nil_append] at this
            rw [this] at hm; cases hm
          · have h4 : (x :: xs).length % 4 = 0 := by
              by_contra h
              rw [malformed_of_length (t := fwd s0 :: fwd s1 :: fwd s2 :: padChar :: x :: xs) (by simp at h ⊢; omega)] at hm; cases hm
            have hall : x :: xs = List.replicate (x::xs).length padChar :=
              List.eq_replicate_iff.2 ⟨rfl, fun y hy => by by_contra hne; exact hx ⟨y, hy, hne⟩⟩
            have : 2 < padRun (fwd s0 :: fwd s1 :: fwd s2 :: padChar :: x :: xs) := by
              rw [hall]
              have : padChar :: List.replicate (x::xs).length padChar = List.replicate ((x::xs).length + 1) padChar := rfl
              rw [padRun_cons_of_ne (fwd_ne_padChar _), padRun_cons_of_ne (fwd_ne_padChar _), padRun_cons_of_ne (fwd_ne_padChar _), this]
              simp [padRun] at h4 ⊢; omega
            rw [malformed_of_pads this] at hm; cases hm
        rw [this]; rfl
    · rw [decFold_twoPads]
      cases rest with
      | nil => rw [(decodeRef_twoPads s0 s1).1, (decodeRef_twoPads s0 s1).2]; simp [DecState.closedAt, DecState.valid, DecState.idle]
      | cons x xs =>
        rw [decFold_closedAt (by simp)]
        have : malformed (fwd s0 :: fwd s1 :: padChar :: padChar :: x :: xs) = true := by
          by_cases hx : ∃ y ∈ x :: xs, y ≠ padChar
          · obtain ⟨y, hy, hne⟩ := hx
            have := malformed_of_pad_before (l := [fwd s0, fwd s1, padChar]) hy hne
            rw [List.cons_append, List.cons_append, List.cons_append, List.nil_append] at this
            exact this
          · have hall : x :: xs = List.replicate (x::xs).length padChar :=
              List.eq_replicate_iff.2 ⟨rfl, fun y hy => by by_contra hne; exact hx ⟨y, hy, hne⟩⟩
            apply malformed_of_pads
            rw [hall]
            have : padChar :: padChar :: List.replicate (x::xs).length padChar = List.replicate ((x::xs).length + 2) padChar := rfl
            rw [padRun_cons_of_ne (fwd_ne_padChar _), padRun_cons_of_ne (fwd_ne_padChar _), this]
            simp [padRun]
        rw [this]; rfl
    · rw [h1, h2]; rfl

/-- From the idle state `DEC.END` emits `DECODE` of the text, then `EOM` (R175). -/
theorem endWords_fold (t : List Byte) : endWords (decFold t DecState.idle) = (decodeRef t).map dataWord ++ [eom] := by
  have h := decFold_result t []
  have e : DecState.openAt [] = DecState.idle := rfl
  rw [e] at h
  have : (if malformed t = true then [] else ([] : List Byte) ++ decodeRef t) = decodeRef t := by
    split
    · rw [decodeRef_of_malformed ‹_›]
    · rfl
  rw [this] at h
  rw [← h]
  unfold endWords
  cases (decFold t DecState.idle).valid <;> rfl

/-- A text that leaves no fault was taken character by character; a fault stays. -/
theorem runInstrs_decData_of_noFault (t : List Byte) : ∀ s u : State, runInstrs (t.map Instr.decData) s = .next u →
    (s.decFaults ≠ [] → u.decFaults ≠ []) ∧
    (u.decFaults = [] → u = { s with decIq := s.decIq.drop t.length, dec := decFold t s.dec }) := by
  induction t with
  | nil => intro s u h; cases h; exact ⟨fun h => h, fun _ => rfl⟩
  | cons c t ih =>
    intro s u h
    have hx : exec (.decData c) s = _ := execDecData_eq c s
    rw [List.map_cons, runInstrs_cons_of_next hx] at h
    have := ih _ _ h
    split at this
    · have hne := this.1 (addFault_ne_nil _ _)
      exact ⟨fun _ => hne, fun h => absurd h hne⟩
    · refine ⟨this.1, fun hu => ?_⟩
      rw [this.2 hu]
      simp [State.takeDec, State.setDec]

/-- The position and the number of staged bytes after a text with no error, by its length (R28, R39). -/
theorem decFold_count (t : List Byte) : ∀ st : List Byte, (decFold t (DecState.openAt st)).err = false →
    (decFold t (DecState.openAt st)).pos = BitVec.ofNat 2 (t.length % 4) ∧
    ((decFold t (DecState.openAt st)).closed = false → (decFold t (DecState.openAt st)).stage.length = st.length + 3 * (t.length / 4)) ∧
    ((decFold t (DecState.openAt st)).closed = true → ∃ k, (k = 1 ∨ k = 2) ∧ (decFold t (DecState.openAt st)).stage.length + 3 = st.length + 3 * (t.length / 4) + k) := by
  induction t using list_four_induction with
  | nil => intro st; simp [DecState.openAt, DecState.idle]
  | one a =>
    intro st
    obtain ⟨s, -, rfl⟩ | ⟨-, rfl⟩ | h := classify_cases a <;>
      simp [decNext, DecState.openAt, DecState.idle, DecState.latchError, *]
  | two a b =>
    intro st
    obtain ⟨s, -, rfl⟩ | ⟨-, rfl⟩ | h := classify_cases a <;> obtain ⟨s', -, rfl⟩ | ⟨-, rfl⟩ | h' := classify_cases b <;>
      simp [decNext, DecState.openAt, DecState.idle, DecState.latchError, *]
  | three a b c =>
    intro st
    obtain ⟨s, -, rfl⟩ | ⟨-, rfl⟩ | h := classify_cases a <;> obtain ⟨s', -, rfl⟩ | ⟨-, rfl⟩ | h' := classify_cases b <;>
    obtain ⟨s'', -, rfl⟩ | ⟨-, rfl⟩ | h'' := classify_cases c <;>
      simp [decNext, DecState.openAt, DecState.idle, DecState.latchError, DecState.padThird, *]
  | group a b c d rest ih =>
    intro st he
    obtain ⟨s0, s1, s2, s3, rfl, rfl, rfl, rfl⟩ | ⟨s0, s1, s2, rfl, rfl, rfl, rfl⟩ | ⟨s0, s1, rfl, rfl, rfl, rfl⟩ | ⟨h1, h2⟩ :=
      group_cases a b c d rest st
    · rw [decFold_group] at he ⊢
      obtain ⟨i1, i2, i3⟩ := ih _ he
      refine ⟨?_, fun h => ?_, fun h => ?_⟩
      · rw [i1]; congr 1; simp; omega
      · rw [i2 h]; simp [groupBytes3]; omega
      · obtain ⟨k, hk, hh⟩ := i3 h
        refine ⟨k, hk, ?_⟩
        rw [hh]; simp [groupBytes3]; omega
    · rw [decFold_onePad] at he ⊢
      cases rest with
      | nil => refine ⟨by simp [DecState.closedAt, DecState.idle], ?_, ?_⟩; · (intro h; cases h)
               · (intro h; refine ⟨2, .inr rfl, ?_⟩; simp [DecState.closedAt, groupBytes2])
      | cons x xs => rw [decFold_closedAt (by simp)] at he; cases he
    · rw [decFold_twoPads] at he ⊢
      cases rest with
      | nil => refine ⟨by simp [DecState.closedAt, DecState.idle], ?_, ?_⟩; · (intro h; cases h)
               · (intro h; refine ⟨1, .inl rfl, ?_⟩; simp [DecState.closedAt, groupBytes1])
      | cons x xs => rw [decFold_closedAt (by simp)] at he; cases he
    · rw [h1] at he; cases he

/-! ### Turns of whole messages -/

/-- The host's pushes on `ENC_IQ`, one after another (R55). -/
theorem runTurns_pushEnc (ws : List PortWord) : ∀ s : State, s.resetIn = false →
    runTurns (ws.map Turn.pushEnc) s = .next { s with encIq := s.encIq ++ ws } := by
  induction ws with
  | nil => intro s h; simp
  | cons w ws ih =>
    intro s h
    rw [List.map_cons, runTurns_cons_of_next (u := .pushEnc w) (t := s.pushEnc w) (unlessReset_of_released h (fun s => .next (s.pushEnc w))), ih (s.pushEnc w) h]
    simp [State.pushEnc]

/-- The host's pushes on `DEC_IQ`, one after another (R55). -/
theorem runTurns_pushDec (ws : List PortWord) : ∀ s : State, s.resetIn = false →
    runTurns (ws.map Turn.pushDec) s = .next { s with decIq := s.decIq ++ ws } := by
  induction ws with
  | nil => intro s h; simp
  | cons w ws ih =>
    intro s h
    rw [List.map_cons, runTurns_cons_of_next (u := .pushDec w) (t := s.pushDec w) (unlessReset_of_released h (fun s => .next (s.pushDec w))), ih (s.pushDec w) h]
    simp [State.pushDec]

/-- With its instructions' words queued, `ENC`'s turns run those instructions (R56). -/
theorem runTurns_enc (is : List Instr) : ∀ s t : State, (∀ i ∈ is, i.engine = .enc) → s.resetIn = false → s.encFaults = [] →
    s.encIq = is.map encode → runInstrs is s = .next t → runTurns (List.replicate is.length Turn.enc) s = .next t := by
  induction is with
  | nil => intro s t _ _ _ _ h; exact h
  | cons i is ih =>
    intro s t he hr hf hq h
    have hi := he i (by simp)
    have ht : takeTurn .enc s = exec i s := by
      rw [takeTurn, unlessReset_of_released hr]
      exact engineTurn_of_instr (e := .enc) hf hq (by rw [← hi]; cases i <;> simp [Instr.engine, encode])
    cases hx : exec i s with
    | next m =>
      rw [runInstrs_cons_of_next hx] at h
      have hm : m.resetIn = false ∧ m.encFaults = [] ∧ m.encIq = is.map encode := by
        cases i with
        | encData b =>
          obtain ⟨-, rfl⟩ | ⟨-, rfl⟩ | ⟨-, rfl⟩ := execEncData_next hx <;> exact ⟨hr, hf, by simp [hq]⟩
        | encEnd => obtain ⟨-, rfl⟩ := execEncEnd_next hx; exact ⟨hr, hf, by simp [hq]⟩
        | decData c => cases hi
        | decEnd => cases hi
      have := ih m t (fun j hj => he j (by simp [hj])) hm.1 hm.2.1 hm.2.2 h
      show runTurns (Turn.enc :: List.replicate is.length Turn.enc) s = _
      rw [runTurns_cons_of_next (ht.trans hx), this]
    | fault r => simp [runInstrs, hx] at h
    | refused r => simp [runInstrs, hx] at h

/-- With a message's words queued, no fault and room for its text, `DEC`'s turns run its instructions (R56, R170). -/
theorem runTurns_dec (ts : List Byte) : ∀ s : State, s.resetIn = false → s.decFaults = [] → s.roomFor ts.length →
    s.decIq = messageWords ts →
    runTurns (List.replicate (ts.length + 1) Turn.dec) s = runInstrs (decMessage ts) s := by
  induction ts with
  | nil =>
    intro s hr hf _ hq
    have ht : takeTurn .dec s = exec .decEnd s := by
      rw [takeTurn, unlessReset_of_released hr]
      exact engineTurn_of_instr (e := .dec) hf hq (by simp)
    show runTurns [Turn.dec] s = runInstrs [.decEnd] s
    rw [runTurns_cons_of_next (ht.trans (execDecEnd_eq s)), runInstrs_cons_of_next (i := .decEnd) (execDecEnd_eq s)]; rfl
  | cons c ts ih =>
    intro s hr hf hroom hq
    have ht : takeTurn .dec s = exec (.decData c) s := by
      rw [takeTurn, unlessReset_of_released hr]
      exact engineTurn_of_instr (e := .dec) hf hq (by simp)
    have hx : exec (.decData c) s = .next (s.takeDec.setDec (decNext c s.dec)) := by
      have := runInstrs_decData (t := [c]) (s := s) (by intro cap hc; have := hroom cap hc; simp at this ⊢; omega)
      cases h : exec (.decData c) s with
      | next m => 
        rw [List.map_cons, runInstrs_cons_of_next h] at this
        simp at this; rw [this]; simp [State.takeDec, State.setDec, ← List.drop_one]
      | fault r => simp [runInstrs, h] at this
      | refused r => simp [runInstrs, h] at this
    show runTurns (Turn.dec :: List.replicate (ts.length + 1) Turn.dec) s = runInstrs (.decData c :: decMessage ts) s
    rw [runTurns_cons_of_next (ht.trans hx), runInstrs_cons_of_next hx]
    apply ih
    · exact hr
    · exact hf
    · intro cap hc
      have h1 := hroom cap hc
      have h2 := decNext_count c s.dec
      simp at h1 ⊢
      omega
    · simp [hq, messageWords]

end Sys2Proof.Machine
end

