-- ==== Sys2Proof/Laws/Invariant.lean ====
section
/-! SUPPORT. The invariants of spec/10_state.md R39 and the bound of R30 through one `DEC.DATA`. -/

namespace Sys2Proof.Machine

/-- `DEC.DATA` keeps R39 on the decoder's fields. -/
theorem decNext_inv (c : Byte) (d : DecState) (h : d.Inv) : (decNext c d).Inv := by
  have hlatch : ∀ d : DecState, d.latchError.Inv := fun d => by
    show DecState.latched.Inv
    decide
  unfold decNext
  cases he : d.err with
  | true => simpa using h
  | false =>
    simp only [Bool.false_eq_true, if_false]
    cases hk : classify c with
    | invalid => exact hlatch d
    | pad =>
      simp only
      cases hc : d.closed with
      | true => exact hlatch d
      | false =>
        simp only [Bool.false_eq_true, if_false]
        obtain ⟨h1, h2, h3, h4, h5, h6, h7, h8, h9⟩ := h
        obtain hp | hp | hp | hp := pos_cases d.pos
        · simp [hp]; exact hlatch d
        · simp [hp]; exact hlatch d
        · have := h6 hp
          have := h8 he hc
          simp_all [DecState.padThird, DecState.Inv]
        · have := h8 he hc
          cases hp3 : d.pad3 <;> simp [hp, he, hc, hk, hp3, DecState.closeGroup, DecState.Inv, decStages, groupBytes1, groupBytes2] <;> omega
    | data v =>
      simp only
      cases hc : d.closed with
      | true => exact hlatch d
      | false =>
        cases h3 : d.pad3 with
        | true => exact hlatch d
        | false =>
        simp only [Bool.false_eq_true, if_false]
        obtain ⟨h1, h2, h3', h4, h5, h6, h7, h8, h9⟩ := h
        have := h8 he hc
        obtain hp | hp | hp | hp := pos_cases d.pos
        · simp_all [DecState.Inv]
        · simp_all [DecState.Inv]
        · simp_all [DecState.Inv]
        · simp [hp, he, hc, hk, h3, DecState.nextGroup, DecState.Inv, decStages, groupBytes3]; omega

/-- `DEC.DATA` keeps the staging buffer within its capacity (R30). -/
theorem stageFits_decNext (c : Byte) (s : State) (h : s.stageFits 0 = true) (h' : decStages c s.dec = [] ∨ s.stageFits (decStages c s.dec).length = true) :
    (s.takeDec.setDec (decNext c s.dec)).stageFits 0 = true := by
  cases hc : s.cfg.decStageCap with
  | none => exact State.stageFits_of_none (s := s.takeDec.setDec (decNext c s.dec)) hc _
  | some n =>
    rw [State.stageFits_of_some (s := s.takeDec.setDec (decNext c s.dec)) hc]
    rw [State.stageFits_of_some hc] at h h'
    simp
    have : (decNext c s.dec).stage.length ≤ s.dec.stage.length + (decStages c s.dec).length := by
      cases he : (decNext c s.dec).err with
      | false => rw [decNext_stage he]; simp
      | true =>
        cases he0 : s.dec.err with
        | true => rw [decNext_of_err he0]; simp
        | false =>
          -- error now: stage is []
          have : (decNext c s.dec).stage = [] := by
            revert he
            unfold decNext
            simp only [he0]
            cases classify c with
            | invalid => intro; rfl
            | pad =>
              cases s.dec.closed <;> simp [DecState.latchError, DecState.idle]
              obtain hp | hp | hp | hp := pos_cases s.dec.pos <;> simp [hp, he0, DecState.padThird, DecState.closeGroup]
            | data v =>
              cases s.dec.closed <;> simp [DecState.latchError, DecState.idle]
              cases s.dec.pad3 <;> simp
              obtain hp | hp | hp | hp := pos_cases s.dec.pos <;> simp [hp, he0, DecState.nextGroup]
          simp [this]
    obtain h' | h' := h'
    · rw [h'] at this; simp at this; omega
    · omega

end Sys2Proof.Machine
end

