-- ==== Sys2Proof/Laws/PerInstr.lean ====
section
/-! SUPPORT. For all instructions, one lemma per constructor: the word an instruction is encoded as meets its row of
spec/opcode_table.json (mask 0x300), and its other bits are its operand, or zero for an `END` (R78, R83). -/

namespace Sys2Proof

/-- The `match` of an instruction's row in spec/opcode_table.json, under the mask 0x300. -/
def Laws.TableRow.rowMatch : Instr → PortWord
  | .encData _ => 0x000
  | .encEnd => 0x100
  | .decData _ => 0x000
  | .decEnd => 0x100

/-- The operand an instruction carries in its payload; 0x00 where it has none. -/
def Laws.TableRow.operand : Instr → Byte
  | .encData b => b
  | .encEnd => 0x00
  | .decData c => c
  | .decEnd => 0x00

/-- The instruction's word meets its row, and carries its operand in bits [7:0]. -/
def Laws.TableRow.Statement (i : Instr) : Prop :=
  encode i &&& 0x300#10 = Laws.TableRow.rowMatch i ∧ (encode i).extractLsb' 0 8 = Laws.TableRow.operand i

theorem Laws.TableRow.encData (b : Byte) : Laws.TableRow.Statement (.encData b) := by
  revert b; unfold Laws.TableRow.Statement; decide

theorem Laws.TableRow.encEnd : Laws.TableRow.Statement .encEnd := by
  unfold Laws.TableRow.Statement; decide

theorem Laws.TableRow.decData (c : Byte) : Laws.TableRow.Statement (.decData c) := by
  revert c; unfold Laws.TableRow.Statement; decide

theorem Laws.TableRow.decEnd : Laws.TableRow.Statement .decEnd := by
  unfold Laws.TableRow.Statement; decide

end Sys2Proof
end

