-- ==== Sys2Proof/Tests/Slice0.lean ====
section
/-! SUPPORT. The model's own tests: ill-formed terms the checks refuse, words written out from the encoding of
spec/30_encoding.md, single steps from the vectors of spec/95_test_vectors.md, and for every statement with hypotheses
a concrete state and operands that meet them. Expected values are the spec's. -/

namespace Sys2Proof.Tests

open Sys2Proof.Machine

/-- The state an answer goes on in, if it does. -/
def nextOf : Answer → Option State
  | .next s => some s
  | .fault _ => none
  | .refused _ => none

/-- The state after reset with these encoder fields. -/
def encAt (cnt : BitVec 2) (hold : BitVec 16) : State := { State.reset with enc := ⟨cnt, hold⟩ }

/-- The state after reset with these decoder fields, no error latched. -/
def decAt (pos : BitVec 2) (acc : BitVec 18) (pad3 closed : Bool) (stage : List Byte) : State :=
  { State.reset with dec := ⟨pos, acc, pad3, closed, false, stage⟩ }

/-- The state after reset with the error latched (R39.5). -/
def errState : State := { State.reset with dec := ⟨0, 0, false, false, true, []⟩ }

/-- A state of a build with this capacity. -/
def capped (n : Nat) (s : State) : State := { s with cfg := ⟨some n⟩ }

/-! ### WellFormed: what the checks refuse -/

theorem test_payload_256_refused :
    (AsmLine.encData (.number 256)).wf = false ∧ (AsmLine.decData (.number 256)).wf = false ∧
    (AsmLine.encMsg [0, 256]).wf = false := by decide

theorem test_non_ascii_text_refused : (AsmLine.encStr ['h', 'é']).wf = false ∧
    (AsmLine.encData (.quoted 'é')).wf = false := by decide

theorem test_bare_end_refused : AsmLine.bareEnd.wf = false := by decide

theorem test_reserved_words_refused : inputWordWf 0x200 = false ∧ inputWordWf 0x3FF = false := by decide

theorem test_good_lines_accepted :
    (AsmLine.encData (.number 255)).wf = true ∧ (AsmLine.encData (.quoted 'h')).wf = true ∧
    (AsmLine.decData (.quoted '=')).wf = true ∧ (AsmLine.encStr ['h', 'i']).wf = true ∧
    inputWordWf 0x1FF = true := by decide

/-! ### Decode: words written out bit by bit from R71 and R72 -/

theorem test_decode_enc_data : decodeIw .enc 0b0001101000#10 = .instr (.encData 0x68) := by decide
theorem test_decode_enc_end : decodeIw .enc 0b0110100101#10 = .instr .encEnd := by decide
theorem test_decode_dec_data : decodeIw .dec 0b0000111101#10 = .instr (.decData 0x3D) := by decide
theorem test_decode_dec_end : decodeIw .dec 0b0100000000#10 = .instr .decEnd := by decide
theorem test_decode_reserved : decodeIw .enc 0b1000000000#10 = .reserved 0x200 := by decide

/-- Bit 10 names the port (log 11); a reserved word gives no instruction. -/
theorem test_table_words :
    decodeTableWord 16 0x068 = some (.encData 0x68) ∧ decodeTableWord 16 0x100 = some .encEnd ∧
    decodeTableWord 16 0x43D = some (.decData 0x3D) ∧ decodeTableWord 16 0x500 = some .decEnd ∧
    decodeTableWord 16 0x200 = none := by decide

/-- The next step after `withFetchWord` runs the word: `ENC.DATA 0x68` (95_test_vectors.md 2.2, first row). -/
theorem test_fetch_word_enc :
    (nextOf (step (State.reset.withFetchWord 16 0x068))).map (fun s => (s.enc, s.encIq)) =
      some (⟨1, 0x6800⟩, []) := by decide

/-- The same on the decoder's port: `DEC.DATA 'a'` (95_test_vectors.md 2.3, first row). -/
theorem test_fetch_word_dec :
    (nextOf (step (State.reset.withFetchWord 16 0x461))).map (fun s => (s.dec.pos, s.dec.acc, s.decIq)) =
      some (1, 0x1A000, []) := by decide

/-- `ENC.DATA 'h'` (95_test_vectors.md P1, row 0). -/
theorem test_assemble_enc_data_quoted : (AsmLine.encData (.quoted 'h')).assemble = some [(.enc, 0x068)] := by decide

/-- `ENC.STR "hi"` (95_test_vectors.md P1). -/
theorem test_assemble_enc_str :
    (AsmLine.encStr ['h', 'i']).assemble = some [(.enc, 0x068), (.enc, 0x069), (.enc, 0x100)] := by decide

/-! ### Single steps (95_test_vectors.md 2.2) -/

theorem test_enc_data_second :
    (nextOf (exec (.encData 0x65) (encAt 1 0x6800))).map (fun s => (s.enc, s.encOq)) = some (⟨2, 0x6865⟩, []) := by
  decide

theorem test_enc_data_third :
    (nextOf (exec (.encData 0x6C) (encAt 2 0x6865))).map (fun s => (s.enc, s.encOq)) =
      some (⟨0, 0x0000⟩, [0x061, 0x047, 0x056, 0x073]) := by decide

theorem test_enc_end_one :
    (nextOf (exec .encEnd (encAt 1 0x6800))).map (fun s => (s.enc, s.encOq)) =
      some (⟨0, 0x0000⟩, [0x061, 0x041, 0x03D, 0x03D, 0x100]) := by decide

theorem test_enc_end_two :
    (nextOf (exec .encEnd (encAt 2 0x6865))).map (fun s => (s.enc, s.encOq)) =
      some (⟨0, 0x0000⟩, [0x061, 0x047, 0x055, 0x03D, 0x100]) := by decide

/-! ### Single steps (95_test_vectors.md 2.3) -/

theorem test_dec_data_fourth :
    (nextOf (exec (.decData 0x73) (decAt 3 0x1A195 false false []))).map (fun s => (s.dec, s.decOq)) =
      some (⟨0, 0, false, false, false, [0x68, 0x65, 0x6C]⟩, []) := by decide

theorem test_dec_data_two_pads :
    (nextOf (exec (.decData 0x3D) (decAt 3 0x1A180 true false []))).map (fun s => (s.dec, s.decOq)) =
      some (⟨0, 0, false, true, false, [0x68]⟩, []) := by decide

theorem test_dec_end_valid :
    (nextOf (exec .decEnd (decAt 0 0 false true [0x68, 0x69]))).map (fun s => (s.dec, s.decOq)) =
      some (⟨0, 0, false, false, false, []⟩, [0x068, 0x069, 0x100]) := by decide

theorem test_dec_end_incomplete :
    (nextOf (exec .decEnd (decAt 2 0x1A180 false false [0x68, 0x69, 0x6A]))).map (fun s => (s.dec, s.decOq)) =
      some (⟨0, 0, false, false, false, []⟩, [0x100]) := by decide

/-! ### Faults and reset (95_test_vectors.md 2.5, P4) -/

/-- `DEC_STAGE_CAP` = 3: the last `'='` of `"QUJDRA=="` would stage a fourth byte. -/
theorem test_stage_overflow :
    (nextOf (exec (.decData 0x3D) (capped 3 (decAt 3 0x11000 true false [0x41, 0x42, 0x43])))).map
      (fun s => (s.faults, s.dec.stage, s.decOq)) =
        some ([(.dec, ⟨.stageOverflow, 0x03D, some 3⟩)], [0x41, 0x42, 0x43], []) := by decide

theorem test_reserved_word_dec :
    (nextOf (takeTurn .dec { State.reset with decIq := [0x3FF] })).map (fun s => (s.faults, s.decOq)) =
      some ([(.dec, ⟨.reservedWord, 0x3FF, none⟩)], []) := by decide

/-- P4, row 4: the four characters and the byte held are dropped. -/
theorem test_reset_mid_message :
    (nextOf (takeTurn (.reset true) { encAt 1 0x6C00 with encOq := [0x061, 0x047, 0x056, 0x073] })).map
      (fun s => (s.enc, s.encOq)) = some (⟨0, 0x0000⟩, []) := by decide

/-! ### Whole messages (95_test_vectors.md 2.2, 2.4) -/

/-- `"hi"` encodes as `"aGk="`; `0xFB 0xFF` as `"+/8="`. -/
theorem test_encode :
    encodeRef [0x68, 0x69] = [0x61, 0x47, 0x6B, 0x3D] ∧ encodeRef [0xFB, 0xFF] = [0x2B, 0x2F, 0x38, 0x3D] ∧
    encodeRef [] = [] := by decide

/-- `"aGk="` is `"hi"`; `"QR=="` drops its low bits; `"AB=C"`, `"A==="`, `"AB="` give the sentinel. -/
theorem test_decode :
    decodeRef [0x61, 0x47, 0x6B, 0x3D] = [0x68, 0x69] ∧ decodeRef [0x51, 0x52, 0x3D, 0x3D] = [0x41] ∧
    decodeRef [0x41, 0x42, 0x3D, 0x43] = [] ∧ decodeRef [0x41, 0x3D, 0x3D, 0x3D] = [] ∧
    decodeRef [0x41, 0x42, 0x3D] = [] := by decide

/-- The words of P2's output read as four messages: `"hi"`, the sentinel, the empty one, `"Man"` (R77). -/
theorem test_results :
    results [0x068, 0x069, 0x100, 0x100, 0x100, 0x04D, 0x061, 0x06E, 0x100] =
      [[0x68, 0x69], [], [], [0x4D, 0x61, 0x6E]] := by decide

/-! ### Witnesses: encoding -/

theorem witness_DecodeIwFollowsKind :
    (0x000#10).extractLsb' 8 2 = 0b00#2 ∧ (0x0FF#10).extractLsb' 8 2 = 0b00#2 ∧
    (0x100#10).extractLsb' 8 2 = 0b01#2 ∧ (0x1FF#10).extractLsb' 8 2 = 0b01#2 ∧
    (0x200#10).extractLsb' 8 2 = 0b10#2 ∧ (0x3FF#10).extractLsb' 8 2 = 0b11#2 := by decide

theorem witness_EncodeAndDecodeAgree :
    decodeIw .enc 0x0FF = .instr (.encData 0xFF) ∧ decodeIw .enc 0x100 = .instr .encEnd ∧
    decodeIw .dec 0x000 = .instr (.decData 0x00) ∧ decodeIw .dec 0x1A5 = .instr .decEnd := by decide

theorem witness_AssemblerLineWords :
    (0 < 256 ∧ 255 < 256) ∧ (Char.ofNat 0).toNat < 128 ∧ (Char.ofNat 127).toNat < 128 := by decide

theorem witness_PseudoInstructionExpansions :
    (∀ n ∈ [0, 255], n < 256) ∧ (∀ c ∈ [Char.ofNat 0, Char.ofNat 127], c.toNat < 128) :=
  ⟨by simp, by simp⟩

theorem witness_AssembledLineDecodesToItsExpansion :
    (AsmLine.encMsg [0, 255]).wf = true ∧ (AsmLine.decMsg ['a', 'é']).wf = true ∧ AsmLine.decEnd.wf = true := by decide

theorem witness_ForwardRomIsOneToOne : fwd 63 = fwd 63 := by decide

theorem witness_InverseRomContents :
    (0x41#8 = fwd 0 ∧ 0x2F#8 = fwd 63) ∧ (∀ i : Sextet, 0x2C#8 ≠ fwd i) ∧ 0x2C#8 ≠ 0x3D#8 :=
  ⟨by decide, by decide, by decide⟩

theorem witness_RomsAreInverse : classify 0x41 = .data 0 ∧ classify 0x2F = .data 63 := by decide

/-! ### Witnesses: the reference functions -/

theorem witness_EncodeLength : [(0x68 : Byte)] ≠ [] := by decide

theorem witness_DecodeLength :
    malformed [0x61, 0x47, 0x6B, 0x3D] = false ∧ malformed [0x61, 0x41, 0x3D, 0x3D] = false ∧
    malformed [0x41, 0x41, 0x41, 0x41] = false := by decide

/-- `"AB="`; the comma of `"aG,s"`; three pads in `"A==="`; the pad of `"AB=C"`; a pad in position 1 and in position 2, of group 1 and of group 2; `"AB=C"`. -/
theorem witness_InvalidTextGivesSentinel :
    [(0x41 : Byte), 0x42, 0x3D].length % 4 ≠ 0 ∧
    (0x2C ∈ [(0x61 : Byte), 0x47, 0x2C, 0x73] ∧ classify 0x2C = .invalid) ∧
    2 < padRun [0x41, 0x3D, 0x3D, 0x3D] ∧
    (2 + padRun [0x41, 0x42, 0x3D, 0x43] < 4 ∧ classify ([(0x41 : Byte), 0x42, 0x3D, 0x43].getD 2 0) = .pad) ∧
    (0 % 4 < 2 ∧ classify ([(0x3D : Byte), 0x41, 0x41, 0x41].getD 0 0) = .pad) ∧
    (1 % 4 < 2 ∧ classify ([(0x41 : Byte), 0x3D, 0x41, 0x41].getD 1 0) = .pad) ∧
    (4 % 4 < 2 ∧ classify ([(0x61 : Byte), 0x47, 0x6B, 0x3D, 0x3D, 0x41, 0x41, 0x41].getD 4 0) = .pad) ∧
    (2 < 3 ∧ classify ([(0x41 : Byte), 0x42, 0x3D, 0x43].getD 2 0) = .pad ∧
      classify ([(0x41 : Byte), 0x42, 0x3D, 0x43].getD 3 0) ≠ .pad) := by decide

/-! ### Witnesses: the instructions -/

theorem witness_EncDataResult_and_EncEndResult :
    (encAt 0 0x0000).enc.cnt = 0 ∧ (encAt 1 0x6800).enc.cnt = 1 ∧ (encAt 2 0x6865).enc.cnt = 2 := by decide

theorem witness_DecDataResult_latched : errState.dec.err = true := by decide

/-- The first premises of the error clause: an invalid code, and any code after a padded group. -/
theorem witness_DecDataResult_error :
    State.reset.dec.err = false ∧ classify 0x2C = .invalid ∧ (decAt 0 0 false true [0x68]).dec.err = false ∧
    (decAt 0 0 false true [0x68]).dec.closed = true := by decide

/-- The pad's clauses: positions 1 and 2, position 3, position 4 with one pad and with two, with room and without. -/
theorem witness_DecDataResult_pad :
    classify 0x3D = .pad ∧
    (∀ s ∈ [decAt 0 0 false false [], decAt 1 0x1A000 false false [], decAt 2 0x1A180 false false [],
      decAt 3 0x1A1A4 false false [], decAt 3 0x1A180 true false []], s.dec.err = false ∧ s.dec.closed = false) ∧
    (decAt 3 0x1A1A4 false false []).cfg.decStageCap = none ∧
    ((capped 2 (decAt 3 0x1A1A4 false false [])).cfg.decStageCap = some 2 ∧ ([] : List Byte).length + 2 ≤ 2) ∧
    ((capped 1 (decAt 3 0x1A1A4 false false [])).cfg.decStageCap = some 1 ∧ 1 < ([] : List Byte).length + 2) ∧
    ((capped 1 (decAt 3 0x1A180 true false [])).cfg.decStageCap = some 1 ∧ ([] : List Byte).length + 1 ≤ 1) ∧
    ((capped 0 (decAt 3 0x1A180 true false [])).cfg.decStageCap = some 0 ∧ 0 < ([] : List Byte).length + 1) := by decide

/-- The data character's clauses: after a pad, and the four positions, the last with room and without. -/
theorem witness_DecDataResult_data :
    classify 0x41 = .data 0 ∧ (decAt 3 0x1A180 true false []).dec.pad3 = true ∧
    (∀ s ∈ [decAt 0 0 false false [], decAt 1 0x1A000 false false [], decAt 2 0x1A180 false false [],
      decAt 3 0x1A195 false false []], s.dec.err = false ∧ s.dec.closed = false ∧ s.dec.pad3 = false) ∧
    ((capped 3 (decAt 3 0x1A195 false false [])).cfg.decStageCap = some 3 ∧ ([] : List Byte).length + 3 ≤ 3) ∧
    ((capped 2 (decAt 3 0x1A195 false false [])).cfg.decStageCap = some 2 ∧ 2 < ([] : List Byte).length + 3) := by decide

theorem witness_ErrorPathConditions :
    (∀ s ∈ [decAt 0 0 false false [], decAt 1 0x1A000 false false [], decAt 3 0x1A180 true false [],
      decAt 0 0 false true [0x68]], s.dec.Inv ∧ s.dec.err = false) ∧
    (decAt 1 0x1A000 false false []).dec.pos ≠ 0 ∧ (decAt 3 0x1A195 false false []).dec.pos ≠ 0 := by decide

theorem witness_LatchedDecoderIgnoresCharacters : errState.dec.err = true := by decide

theorem witness_EncoderInstructionFrame :
    (∃ t, exec (.encData 0x68) (encAt 0 0) = .next t) ∧ (encAt 0 0).enc.cnt ≠ 2 ∧
    (∃ t, exec (.encData 0x6C) (encAt 2 0x6865) = .next t) ∧ (∃ t, exec .encEnd (encAt 1 0x6800) = .next t) :=
  ⟨⟨_, rfl⟩, by decide, ⟨_, rfl⟩, ⟨_, rfl⟩⟩

/-- Both ways a `DEC.DATA` can go: it takes its word, or it adds a fault (capacity 0, `"aA=="`). -/
theorem witness_DecoderInstructionFrame :
    (∃ t, exec (.decData 0x61) State.reset = .next t) ∧
    (∃ t, exec (.decData 0x3D) (capped 0 (decAt 3 0x1A000 true false [])) = .next t ∧ t.decFaults ≠ []) ∧
    (∃ t, exec .decEnd State.reset = .next t) :=
  ⟨⟨_, rfl⟩, ⟨_, rfl, by decide⟩, ⟨_, rfl⟩⟩

theorem witness_InstructionsComplete :
    (encAt 2 0x6865).enc.cnt ≠ 3 ∧ (encAt 0 0).enc.cnt ≠ 3 ∧ (encAt 3 0).enc.cnt = 3 := by decide

/-! ### Witnesses: the agents' steps -/

/-- A word at the head of each engine's queue, and its turn first in the schedule. -/
def encReady (w : PortWord) : State := { State.reset with encIq := [w], schedule := [.enc] }
def decReady (w : PortWord) : State := { State.reset with decIq := [w], schedule := [.dec] }

theorem witness_StepRunsDecodedInstruction :
    ((encReady 0x068).resetIn = false ∧ (encReady 0x068).schedule = engineOwnTurn .enc :: [] ∧
      (encReady 0x068).faultsOf .enc = [] ∧ (encReady 0x068).inputQueue .enc = 0x068 :: [] ∧
      decodeIw .enc 0x068 = .instr (.encData 0x68)) ∧
    ((decReady 0x1FF).resetIn = false ∧ (decReady 0x1FF).schedule = engineOwnTurn .dec :: [] ∧
      (decReady 0x1FF).faultsOf .dec = [] ∧ (decReady 0x1FF).inputQueue .dec = 0x1FF :: [] ∧
      decodeIw .dec 0x1FF = .instr .decEnd) := by decide

theorem witness_ReservedWordIsRecorded :
    ((0x200#10).extractLsb' 8 2 = 0b10#2 ∧ (encReady 0x200).resetIn = false ∧ (encReady 0x200).schedule = [.enc] ∧
      (encReady 0x200).encFaults = [] ∧ (encReady 0x200).encIq = [0x200]) ∧
    ((0x3FF#10).extractLsb' 8 2 = 0b11#2 ∧ (decReady 0x3FF).resetIn = false ∧ (decReady 0x3FF).schedule = [.dec] ∧
      (decReady 0x3FF).decFaults = [] ∧ (decReady 0x3FF).decIq = [0x3FF]) := by decide

/-- A state in which each engine has a fault, and reset's turn is next. -/
def faulted : State :=
  { State.reset with
    encIq := [0x200], encFaults := [⟨.reservedWord, 0x200, none⟩]
    decIq := [0x3FF], decFaults := [⟨.reservedWord, 0x3FF, none⟩]
    schedule := [.reset true] }

theorem witness_FaultedEngineTakesNoStep :
    (faulted.resetIn = false ∧ faulted.faultsOf .enc ≠ [] ∧ faulted.faultsOf .dec ≠ []) ∧
    (∃ t, step faulted = .next t) ∧ (⟨.reservedWord, 0x200, none⟩ ∈ faulted.faultsOf .enc) ∧
    (∃ t, takeTurn .enc (encReady 0x068) = .next t) ∧ (∃ t, takeTurn .dec (decReady 0x061) = .next t) :=
  ⟨by decide, ⟨_, rfl⟩, by decide, ⟨_, rfl⟩, ⟨_, rfl⟩⟩

theorem witness_EngineWithEmptyQueueWaits :
    State.reset.resetIn = false ∧ State.reset.inputQueue .enc = [] ∧ State.reset.inputQueue .dec = [] ∧
    Instr.encEnd.engine = .enc ∧ (Instr.decData 0x61).engine = .dec ∧ State.reset.faultsOf .enc = [] ∧
    State.reset.faultsOf .dec = [] := by decide

theorem witness_HostSteps :
    State.reset.resetIn = false ∧ State.reset.encOq = [] ∧ State.reset.decOq = [] ∧
    ({ State.reset with encOq := [0x061, 0x100] } : State).encOq = 0x061 :: [0x100] ∧
    ({ State.reset with decOq := [0x100] } : State).decOq = 0x100 :: [] := by decide

theorem witness_AssertedResetStopsTheBlock :
    ({ State.reset with resetIn := true } : State).resetIn = true ∧ (∀ a, Turn.enc ≠ .reset a) ∧
    (∀ a, Turn.popDec ≠ .reset a) := by decide

/-! ### Witnesses: rules about every step -/

theorem witness_InvariantKeptByEveryStep :
    (encReady 0x068).Inv ∧ (∃ t, step (encReady 0x068) = .next t) ∧
    State.Inv { capped 3 (decAt 3 0x1A195 false false []) with decIq := [0x073], schedule := [.dec] } ∧
    (∃ t, step { capped 3 (decAt 3 0x1A195 false false []) with decIq := [0x073], schedule := [.dec] } = .next t) :=
  ⟨by decide, ⟨_, rfl⟩, by decide, ⟨_, rfl⟩⟩

theorem witness_StepStopsOnlyOnEmptyPop :
    State.reset.Inv ∧ State.Inv { State.reset with schedule := [.popEnc] } ∧
    State.Inv { State.reset with schedule := [.popDec] } :=
  ⟨by decide, by decide, by decide⟩

theorem witness_OutputWordsStayLegal :
    State.OutputsOk { encAt 2 0x6865 with encIq := [0x06C], encOq := [0x061, 0x03D, 0x100], schedule := [.enc] } ∧
    (∃ t, step { encAt 2 0x6865 with encIq := [0x06C], encOq := [0x061, 0x03D, 0x100], schedule := [.enc] } = .next t) ∧
    State.OutputsOk { decAt 0 0 false false [0xFF] with decOq := [0x0FF, 0x100] } :=
  ⟨by decide, ⟨_, rfl⟩, by decide⟩

theorem witness_ParametersNeverChange : ∃ t, step { capped 3 State.reset with schedule := [.reset true] } = .next t :=
  ⟨_, rfl⟩

theorem witness_DecoderEmitsOnlyAtEnd :
    ∃ t, step (decReady 0x100) = .next t ∧
      ((decReady 0x100).decPopped ++ (decReady 0x100).decOq).length < (t.decPopped ++ t.decOq).length :=
  ⟨_, rfl, by decide⟩

theorem witness_EachEndGivesOneEom :
    (encReady 0x100).resetIn = false ∧ (∃ t, takeTurn .enc (encReady 0x100) = .next t) ∧
    (decReady 0x100).resetIn = false ∧ (∃ t, takeTurn .dec (decReady 0x100) = .next t) :=
  ⟨rfl, ⟨_, rfl⟩, rfl, ⟨_, rfl⟩⟩

theorem witness_QueuesKeepTheirOrder :
    ∃ t, step { encReady 0x068 with encOq := [0x100], schedule := [.popEnc] } = .next t ∧
      ({ encReady 0x068 with encOq := [0x100], schedule := [.popEnc] } : State).resetIn = false ∧ t.resetIn = false :=
  ⟨_, rfl, rfl, rfl⟩

theorem witness_DutifulHostMeetsNoReservedWord :
    State.Dutiful { encReady 0x1FF with schedule := [.enc, .pushDec 0x0FF] } ∧
    (∃ t, step { encReady 0x1FF with schedule := [.enc, .pushDec 0x0FF] } = .next t) ∧
    (encReady 0x1FF).cfg.decStageCap = none :=
  ⟨by decide, ⟨_, rfl⟩, rfl⟩

/-! ### Witnesses: independence and order -/

/-- A word for each engine (95_test_vectors.md P5, the first two). -/
def bothReady : State := { State.reset with encIq := [0x0FF], decIq := [0x054] }

theorem witness_EngineStepsCommute :
    ∃ t u, takeTurn .enc bothReady = .next t ∧ takeTurn .dec t = .next u := ⟨_, _, rfl, rfl⟩

theorem witness_InterleavingIsImmaterial :
    (∀ t ∈ [Turn.dec, Turn.enc], t = .enc ∨ t = .dec) ∧ (∃ u, runTurns [.dec, .enc] bothReady = .next u) :=
  ⟨by decide, ⟨_, rfl⟩⟩

/-- Two states that agree on the encoder's share and differ elsewhere, and the other way round. -/
theorem witness_EngineStepsReadOnlyTheirShare :
    bothReady.resetIn = (encReady 0x0FF).resetIn ∧ bothReady.SameEncoder (encReady 0x0FF) ∧
    (∃ t, takeTurn .enc bothReady = .next t) ∧ bothReady.SameDecoder (decReady 0x054) ∧
    bothReady.cfg = (decReady 0x054).cfg ∧ (∃ t, takeTurn .dec bothReady = .next t) :=
  ⟨by decide, by decide, ⟨_, rfl⟩, by decide, by decide, ⟨_, rfl⟩⟩

/-! ### Witnesses: whole messages -/

theorem witness_idle_states : State.reset.enc = EncState.idle ∧ State.reset.dec = DecState.idle := by decide

/-- `"aGk="` on an idle decoder: no fault, and the `END` answers. -/
theorem witness_DecoderAgreesWithReference :
    State.reset.dec = DecState.idle ∧ State.reset.decFaults = [] ∧
    ∃ u v, runInstrs ([0x61, 0x47, 0x6B, 0x3D].map Instr.decData) State.reset = .next u ∧ u.decFaults = [] ∧
      exec .decEnd u = .next v :=
  ⟨by decide, by decide, _, _, rfl, by decide, rfl⟩

/-- The bound of R170 at its edge: 4 characters with capacities 3 to 5; 0 with capacity 2; any number unbounded. -/
theorem witness_MessageWithinCapacityNeverOverflows :
    (capped 3 State.reset).dec = DecState.idle ∧ (capped 3 State.reset).messageFits 4 = true ∧
    (capped 5 State.reset).messageFits 4 = true ∧ (capped 2 State.reset).messageFits 0 = true ∧
    State.reset.messageFits 1000 = true := by decide

/-- The three ways the count can end: between groups, closed by a padded group, in the middle of a group. -/
theorem witness_StageCountsGroups :
    (capped 3 State.reset).messageFits 4 = true ∧
    (∃ u, runInstrs ([0x51, 0x55, 0x4A, 0x44].map Instr.decData) (capped 3 State.reset) = .next u ∧ u.dec.err = false ∧
      u.dec.closed = false) ∧
    (∃ u, runInstrs ([0x61, 0x47, 0x6B, 0x3D].map Instr.decData) (capped 3 State.reset) = .next u ∧ u.dec.err = false ∧
      u.dec.closed = true) ∧
    (∃ u, runInstrs ([0x61, 0x47].map Instr.decData) (capped 3 State.reset) = .next u ∧ u.dec.err = false) :=
  ⟨by decide, ⟨_, rfl, by decide, by decide⟩, ⟨_, rfl, by decide, by decide⟩, ⟨_, rfl, by decide⟩⟩

/-- `"AB=C"`. -/
theorem witness_InvalidMessageLooksEmpty :
    (capped 3 State.reset).dec = DecState.idle ∧ (capped 3 State.reset).messageFits 4 = true ∧
    malformed [0x41, 0x42, 0x3D, 0x43] = true := by decide

theorem witness_PushedMessageIsAnswered :
    (capped 3 State.reset).resetIn = false ∧ (capped 3 State.reset).enc = EncState.idle ∧
    (capped 3 State.reset).encIq = [] ∧ (capped 3 State.reset).encFaults = [] ∧
    (capped 3 State.reset).dec = DecState.idle ∧ (capped 3 State.reset).decIq = [] ∧
    (capped 3 State.reset).decFaults = [] ∧ (capped 3 State.reset).messageFits 4 = true := by decide

/-- The three bytes `"hel"`, whose text is 4 characters, with a capacity of 3. -/
theorem witness_RoundTripThroughBothEngines :
    (capped 3 State.reset).resetIn = false ∧ (capped 3 State.reset).enc = EncState.idle ∧
    (capped 3 State.reset).dec = DecState.idle ∧ (capped 3 State.reset).Quiescent ∧ (capped 3 State.reset).FaultFree ∧
    (capped 3 State.reset).messageFits (encodeRef [0x68, 0x65, 0x6C]).length = true := by decide

end Sys2Proof.Tests
end

section
/-! SUPPORT. The proofs of O1, O5 and O32: a word is decoded by its `KIND`, a pseudo-instruction stands for one message,
and a reserved word is recorded. -/

namespace Sys2Proof

/-! ### A word by its `KIND` -/

/-- A word is its `KIND` and its `PAYLOAD` (R71). -/
theorem kind_append_payload (w : PortWord) : kind w ++ payload w = w :=
  BitVec.extractLsb'_append_extractLsb' (w := 2) (len := 8)

/-- The mask 0x300 of the table's rows keeps `KIND` and clears `PAYLOAD`. -/
theorem and_kindMask (w : PortWord) : w &&& 0x300#10 = kind w ++ 0#8 :=
  calc w &&& 0x300#10 = (kind w ++ payload w) &&& (BitVec.allOnes 2 ++ 0#8) := by rw [kind_append_payload]; rfl
    _ = kind w ++ 0#8 := by rw [BitVec.and_append, BitVec.and_allOnes, BitVec.and_zero]

/-- A row's mask and match select the words of one `KIND` (R78). -/
theorem and_kindMask_eq_iff (w : PortWord) (k : BitVec 2) : w &&& 0x300#10 = k ++ 0#8 ↔ kind w = k := by
  rw [and_kindMask, BitVec.append_left_inj]

theorem decodeIw_of_kind_data {w : PortWord} (h : kind w = 0b00#2) :
    decodeIw .enc w = .instr (.encData (payload w)) ∧ decodeIw .dec w = .instr (.decData (payload w)) := by
  simp [decodeIw, h]

theorem decodeIw_of_kind_end {w : PortWord} (h : kind w = 0b01#2) :
    decodeIw .enc w = .instr .encEnd ∧ decodeIw .dec w = .instr .decEnd := by
  simp [decodeIw, h]

/-- A word of either reserved `KIND` is rejected with the word, on both ports. -/
theorem decodeIw_of_kind_reserved {w : PortWord} (h : kind w = 0b10#2 ∨ kind w = 0b11#2) (e : Engine) :
    decodeIw e w = .reserved w := by
  obtain h | h := h <;> simp [decodeIw, h]

/-- Settles O1, by the equations of `decodeIw` for each `KIND` and the mask as a test of `KIND`. -/
theorem decodeIwFollowsKind : Obligations.DecodeIwFollowsKind := fun w =>
  ⟨decodeIw_of_kind_data, decodeIw_of_kind_end,
    fun h => ⟨decodeIw_of_kind_reserved h .enc, decodeIw_of_kind_reserved h .dec⟩,
    and_kindMask_eq_iff w 0b00#2, and_kindMask_eq_iff w 0b01#2⟩

/-! ### The expansions of the pseudo-instructions -/

@[simp] theorem payloadFits_iff (n : Nat) : payloadFits n = true ↔ n < 256 := decide_eq_true_iff

@[simp] theorem isAscii_iff (c : Char) : isAscii c = true ↔ c.toNat < 128 := decide_eq_true_iff

/-- A character of plain ASCII has its own code (R12). -/
theorem charCode_of_ascii {c : Char} (h : c.toNat < 128) : charCode c = BitVec.ofNat 8 c.toNat :=
  if_pos ((isAscii_iff c).2 h)

theorem map_charCode_of_ascii {α : Type} {text : List Char} (h : ∀ c ∈ text, c.toNat < 128) (f : Byte → α) :
    text.map (fun c => f (charCode c)) = text.map (fun c => f (BitVec.ofNat 8 c.toNat)) :=
  List.map_congr_left fun c hc => by rw [charCode_of_ascii (h c hc)]

theorem expand_encMsg {bs : List Nat} (h : ∀ n ∈ bs, n < 256) :
    (AsmLine.encMsg bs).expand = some (bs.map (fun n => Instr.encData (BitVec.ofNat 8 n)) ++ [.encEnd]) :=
  if_pos (by simpa [AsmLine.wf] using h)

/-- Both sides may be written: a plain ASCII code is below 128, so it fits a payload. -/
theorem expand_encStr {text : List Char} (h : ∀ c ∈ text, c.toNat < 128) :
    (AsmLine.encStr text).expand = (AsmLine.encMsg (text.map Char.toNat)).expand := by
  have hbytes : ∀ n ∈ text.map Char.toNat, n < 256 := by
    intro n hn
    obtain ⟨c, hc, rfl⟩ := List.mem_map.1 hn
    exact (h c hc).trans (by decide)
  have hstr : (AsmLine.encStr text).expand =
      some (text.map (fun c => Instr.encData (charCode c)) ++ [.encEnd]) :=
    if_pos (by simpa [AsmLine.wf] using h)
  rw [hstr, map_charCode_of_ascii h, expand_encMsg hbytes, List.map_map]
  rfl

theorem expand_decMsg {text : List Char} (h : ∀ c ∈ text, c.toNat < 128) :
    (AsmLine.decMsg text).expand =
      some (text.map (fun c => Instr.decData (BitVec.ofNat 8 c.toNat)) ++ [.decEnd]) := by
  have hmsg : (AsmLine.decMsg text).expand =
      some (text.map (fun c => Instr.decData (charCode c)) ++ [.decEnd]) := rfl
  rw [hmsg, map_charCode_of_ascii h]

/-- Settles O5: the rows of R84, the empty message by the row for any message. -/
theorem pseudoInstructionExpansions : Obligations.PseudoInstructionExpansions :=
  ⟨fun _ => expand_encMsg, expand_encMsg (by simp), fun _ h => ⟨expand_encStr h, expand_decMsg h⟩,
    expand_decMsg (by simp), rfl⟩

namespace Machine

/-! ### A reserved word at the head of a queue -/

/-- The first fault of an engine is its only one. -/
@[simp] theorem addFault_nil (f : FaultEntry) : addFault [] f = [f] := rfl

/-- The step of an engine with no fault whose head word is reserved raises the fault, and the word is not taken (R80,
R203). -/
theorem step_of_reserved {e : Engine} {s : State} {w : PortWord} {q : List PortWord} {rest : List Turn}
    (hr : s.resetIn = false) (hw : kind w = 0b10#2 ∨ kind w = 0b11#2) (hs : s.schedule = engineOwnTurn e :: rest)
    (hf : s.faultsOf e = []) (hq : s.inputQueue e = w :: q) :
    step s = .next (State.raiseFault e ⟨.reservedWord, w, none⟩ { s with schedule := rest }) := by
  calc step s = takeTurn (engineOwnTurn e) { s with schedule := rest } := step_of_schedule hs
    _ = engineTurn e { s with schedule := rest } := takeTurn_own hr
    _ = _ := engineTurn_of_reserved hf hq (decodeIw_of_kind_reserved hw e)

/-- Settles O32, by `step_of_reserved` for each engine: its fault list was empty and holds the one entry after. -/
theorem reservedWordIsRecorded : Obligations.ReservedWordIsRecorded := by
  intro s w q rest hr hw
  constructor
  · intro hs hf hq
    rw [step_of_reserved (e := .enc) hr hw hs hf hq, State.raiseFault, hf, addFault_nil]
  · intro hs hf hq
    rw [step_of_reserved (e := .dec) hr hw hs hf hq, State.raiseFault, hf, addFault_nil]

end Machine

end Sys2Proof
end

section
/-! SUPPORT. The proofs of O10 and O12: `INV` searches `FWD` for a code, so it is known on the codes `FWD` has, on the pad
and on the rest; `classify` reads it. -/

namespace Sys2Proof.Machine

/-! ### The entries of `FWD` -/

theorem fwdRom_length : fwdRom.length = 64 := by decide

theorem toNat_lt_fwdRom_length (s : Sextet) : s.toNat < fwdRom.length := fwdRom_length ▸ s.isLt

theorem fwdRom_getElem_toNat (s : Sextet) : fwdRom[s.toNat]'(toNat_lt_fwdRom_length s) = fwd s :=
  List.getElem_eq_getD 0x00

theorem fwdRom_getElem_eq_fwd {n : Nat} (h : n < fwdRom.length) : fwdRom[n] = fwd (BitVec.ofNat 6 n) := by
  have hn : (BitVec.ofNat 6 n).toNat = n := Nat.mod_eq_of_lt (h.trans_eq fwdRom_length)
  simp only [← fwdRom_getElem_toNat, hn]

theorem mem_fwdRom_iff {c : Byte} : c ∈ fwdRom ↔ ∃ s, c = fwd s := by
  constructor
  · intro h
    obtain ⟨n, hn, rfl⟩ := List.mem_iff_getElem.1 h
    exact ⟨_, fwdRom_getElem_eq_fwd hn⟩
  · rintro ⟨s, rfl⟩
    exact fwdRom_getElem_toNat s ▸ List.getElem_mem _

/-- `FWD` has no code twice (R102): `classify` gives each entry's index back. -/
theorem fwd_injective : Function.Injective fwd := fun s t h =>
  CharClass.data.inj (by rw [← classify_fwd s, h, classify_fwd])

/-! ### What `INV` finds -/

/-- No earlier entry of `FWD` is the same, so the search for an entry stops at its own index. -/
theorem fwdRom_findIdx?_fwd (s : Sextet) : fwdRom.findIdx? (fun e => e == fwd s) = some s.toNat := by
  refine List.findIdx?_eq_some_iff_getElem.2 ⟨toNat_lt_fwdRom_length s, ?_, fun n hn => ?_⟩
  · rw [fwdRom_getElem_toNat, beq_self_eq_true]
  · rw [fwdRom_getElem_eq_fwd (hn.trans (toNat_lt_fwdRom_length s)), beq_iff_eq]
    intro h
    obtain rfl := fwd_injective h
    exact hn.not_ge (Nat.mod_le n (2 ^ 6))

/-- The search finds no code outside `FWD`. -/
theorem fwdRom_findIdx?_of_ne {c : Byte} (h : ∀ s, c ≠ fwd s) : fwdRom.findIdx? (fun e => e == c) = none := by
  refine List.findIdx?_eq_none_iff.2 fun e he => ?_
  obtain ⟨s, rfl⟩ := mem_fwdRom_iff.1 he
  exact beq_false_of_ne (h s).symm

@[simp] theorem inv_fwd (s : Sextet) : inv (fwd s) = s.zeroExtend 8 := by
  rw [inv, fwdRom_findIdx?_fwd]
  exact BitVec.ofNat_toNat 8 s

theorem inv_of_ne_fwd {c : Byte} (h : ∀ s, c ≠ fwd s) : inv c = if c = padChar then invPad else invInvalid := by
  rw [inv, fwdRom_findIdx?_of_ne h]

@[simp] theorem inv_padChar : inv padChar = invPad := by
  rw [inv_of_ne_fwd fun s => (fwd_ne_padChar s).symm, if_pos rfl]

theorem inv_of_invalid {c : Byte} (hf : ∀ s, c ≠ fwd s) (hp : c ≠ padChar) : inv c = invInvalid := by
  rw [inv_of_ne_fwd hf, if_neg hp]

/-- Settles O10, by what the search that defines `INV` finds for an entry of `FWD`, for the pad and for no entry. -/
theorem inverseRomContents : Obligations.InverseRomContents := by
  intro c
  refine ⟨?_, ?_, inv_of_invalid⟩
  · rintro s rfl
    exact inv_fwd s
  · rintro rfl
    exact inv_padChar

/-! ### `classify` by the entry of `INV` -/

theorem classify_of_inv_le {c : Byte} (h : inv c ≤ 0x3F#8) : classify c = .data ((inv c).extractLsb' 0 6) := if_pos h

theorem classify_of_inv_eq_invInvalid {c : Byte} (h : inv c = invInvalid) : classify c = .invalid := by
  simp [classify, h, invInvalid, invPad]

/-- The entry of a data character is its sextet, at most 0x3F. -/
theorem inv_fwd_le (s : Sextet) : inv (fwd s) ≤ 0x3F#8 := by
  rw [inv_fwd]
  bv_omega

/-- Settles O12: the code is an entry of `FWD`, or the pad, or neither, and `INV` says which. -/
theorem classifyReadsInverseRom : Obligations.ClassifyReadsInverseRom := by
  intro c
  by_cases hf : ∃ s, c = fwd s
  · obtain ⟨s, rfl⟩ := hf
    exact .inl ⟨inv_fwd_le s, classify_of_inv_le (inv_fwd_le s)⟩
  · by_cases hp : c = padChar
    · subst hp
      exact .inr (.inl ⟨inv_padChar, classify_padChar⟩)
    · have hi : inv c = invInvalid := inv_of_invalid (not_exists.1 hf) hp
      exact .inr (.inr ⟨hi, classify_of_inv_eq_invInvalid hi⟩)

end Sys2Proof.Machine
end

section
/-! SUPPORT. The proofs of O22 and O23: the encoder's two meanings by `ENC_CNT`, and the words they emit as the bits that
R133 and R134 write. -/

namespace Sys2Proof.Machine

/-! ### The emitted words, bit by bit -/

/-- `DATA('=')` (R134). -/
theorem dataWord_padChar : dataWord padChar = 0x03D#10 := rfl

/-- The group of a 1-byte tail, `{ENC_HOLD[15:8], 0x0000}` (R134). -/
theorem groupOfBytes_zero_zero (b : Byte) : groupOfBytes b 0x00 0x00 = b ++ 0x0000#16 :=
  calc groupOfBytes b 0x00 0x00 = (b ++ (0x00#8 ++ 0x00#8)).cast rfl := BitVec.append_assoc
    _ = b ++ 0x0000#16 := rfl

theorem map_dataWord_groupChars (g : Group) :
    (groupChars g).map dataWord =
      [0b00#2 ++ map6 (g.extractLsb' 18 6), 0b00#2 ++ map6 (g.extractLsb' 12 6),
        0b00#2 ++ map6 (g.extractLsb' 6 6), 0b00#2 ++ map6 (g.extractLsb' 0 6)] := rfl

theorem map_dataWord_tailChars1 (g : Group) :
    (tailChars1 g).map dataWord =
      [0b00#2 ++ map6 (g.extractLsb' 18 6), 0b00#2 ++ map6 (g.extractLsb' 12 6), 0x03D#10, 0x03D#10] := by
  rw [← dataWord_padChar]; rfl

theorem map_dataWord_tailChars2 (g : Group) :
    (tailChars2 g).map dataWord =
      [0b00#2 ++ map6 (g.extractLsb' 18 6), 0b00#2 ++ map6 (g.extractLsb' 12 6),
        0b00#2 ++ map6 (g.extractLsb' 6 6), 0x03D#10] := by
  rw [← dataWord_padChar]; rfl

/-! ### `ENC.DATA` by `ENC_CNT` -/

section
variable {s : State}

theorem exec_encData_of_cnt_zero (h : s.enc.cnt = 0) (b : Byte) :
    exec (.encData b) s = .next (s.takeEnc.setEnc ⟨1, holdOf b 0x00⟩) :=
  if_pos h

theorem exec_encData_of_cnt_one (h : s.enc.cnt = 1) (b : Byte) :
    exec (.encData b) s = .next (s.takeEnc.setEnc ⟨2, holdOf (holdFirst s.enc.hold) b⟩) := by
  simp [exec, execEncData, h]

theorem exec_encData_of_cnt_two (h : s.enc.cnt = 2) (b : Byte) :
    exec (.encData b) s = .next
      ((s.takeEnc.emitEnc ((groupChars (groupOfHold s.enc.hold b)).map dataWord)).setEnc EncState.idle) := by
  simp [exec, execEncData, h]

/-! ### `ENC.END` by `ENC_CNT` -/

theorem endTail_of_cnt_zero {e : EncState} (h : e.cnt = 0) : endTail e = [] := if_pos h

theorem endTail_of_cnt_one {e : EncState} (h : e.cnt = 1) :
    endTail e = tailChars1 (groupOfBytes (holdFirst e.hold) 0x00 0x00) := by
  simp [endTail, h]

theorem endTail_of_cnt_two {e : EncState} (h : e.cnt = 2) : endTail e = tailChars2 (groupOfHold e.hold 0x00) := by
  simp [endTail, h]

/-- `ENC.END` takes its word, emits the padded tail `cs` and `EOM`, and leaves the encoder idle. -/
theorem exec_encEnd_of_endTail {cs : List Byte} (hc : s.enc.cnt ≠ 3) (ht : endTail s.enc = cs) :
    exec .encEnd s = .next ((s.takeEnc.emitEnc (cs.map dataWord ++ [eom])).setEnc EncState.idle) :=
  ht ▸ execEncEnd_eq hc

end

/-- Settles O22, by the equation of `ENC.DATA` at each value of `ENC_CNT`; the third emits the completed group. -/
theorem encDataResult : Obligations.EncDataResult := by
  intro b s
  refine ⟨fun h => exec_encData_of_cnt_zero h b, fun h => exec_encData_of_cnt_one h b, fun h => ?_⟩
  rw [exec_encData_of_cnt_two h, map_dataWord_groupChars]
  rfl

/-- Settles O23: at each value of `ENC_CNT` the step is that of `exec_encEnd_of_endTail`, and only the padded tail
differs. -/
theorem encEndResult : Obligations.EncEndResult := by
  intro s
  refine ⟨fun h => ?_, fun h => ?_, fun h => ?_⟩
  · exact exec_encEnd_of_endTail (by simp [h]) (endTail_of_cnt_zero h)
  · rw [exec_encEnd_of_endTail (by simp [h]) (endTail_of_cnt_one h), groupOfBytes_zero_zero, map_dataWord_tailChars1]
    rfl
  · rw [exec_encEnd_of_endTail (by simp [h]) (endTail_of_cnt_two h), map_dataWord_tailChars2]
    rfl

end Sys2Proof.Machine
end

section
/-! SUPPORT. The proofs of O24, O26 and O25: the decoder's two meanings branch by branch, and the characters that latch
the error. -/

namespace Sys2Proof.Machine

section
variable {c : Byte} {s : State}

/-! ### `STAGE` by the capacity -/

theorem stageThen_of_room {xs : List Byte} {d : DecState} (h : s.cfg.decStageCap = none ∨
    ∃ n, s.cfg.decStageCap = some n ∧ s.dec.stage.length + xs.length ≤ n) :
    s.stageThen c xs d = s.takeDec.setDec { d with stage := s.dec.stage ++ xs } :=
  if_pos (State.stageFits_iff.2 h)

theorem stageThen_of_no_room {xs : List Byte} {d : DecState} {n : Nat} (h : s.cfg.decStageCap = some n)
    (hlt : n < s.dec.stage.length + xs.length) :
    s.stageThen c xs d = s.raiseFault .dec ⟨.stageOverflow, dataWord c, some s.dec.stage.length⟩ :=
  if_neg (by simp [State.stageFits_eq_false_of_lt h hlt])

/-! ### `DEC.DATA`: the branch it takes -/

theorem exec_decData_of_err (h : s.dec.err = true) : exec (.decData c) s = .next s.takeDec := if_pos h

theorem exec_decData_of_invalid_or_closed (he : s.dec.err = false)
    (h : classify c = .invalid ∨ s.dec.closed = true) : exec (.decData c) s = .next s.decError := by
  show execDecData c s = _
  obtain hk | hc := h
  · simp [execDecData, he, hk]
  · cases hk : classify c <;> simp [execDecData, he, hc, hk]

theorem exec_decData_of_pad (he : s.dec.err = false) (hc : s.dec.closed = false) (hk : classify c = .pad) :
    exec (.decData c) s = .next (decPadChar c s) := by
  show execDecData c s = _
  simp [execDecData, he, hc, hk]

theorem exec_decData_of_data {v : Sextet} (he : s.dec.err = false) (hc : s.dec.closed = false)
    (hk : classify c = .data v) : exec (.decData c) s = .next (decDataChar c v s) := by
  show execDecData c s = _
  simp [execDecData, he, hc, hk]

/-! ### A pad by its position -/

theorem decPadChar_of_early (h : s.dec.pos = 0 ∨ s.dec.pos = 1) : decPadChar c s = s.decError := by
  obtain h | h := h <;> simp [decPadChar, h]

theorem decPadChar_of_pos_two (h : s.dec.pos = 2) : decPadChar c s = s.takeDec.setDec s.dec.padThird := by
  simp [decPadChar, h]

/-- The bytes of a group that ends in padding: one if the third character was a pad too, else two (R163). -/
def paddedGroupBytes (d : DecState) : List Byte :=
  if d.pad3 = true then groupBytes1 (groupOfAcc d.acc 0) else groupBytes2 (groupOfAcc d.acc 0)

theorem decPadChar_of_pos_three (h : s.dec.pos = 3) :
    decPadChar c s = s.stageThen c (paddedGroupBytes s.dec) s.dec.closeGroup := by
  cases h3 : s.dec.pad3 <;> simp [decPadChar, paddedGroupBytes, h, h3]

/-! ### A data character by its position -/

variable {v : Sextet}

theorem decDataChar_of_pad3 (h : s.dec.pad3 = true) : decDataChar c v s = s.decError := if_pos h

theorem decDataChar_of_pos_zero (h3 : s.dec.pad3 = false) (h : s.dec.pos = 0) :
    decDataChar c v s = s.takeDec.setDec { s.dec with acc := accFirst v, pos := 1 } := by
  simp [decDataChar, h3, h]

theorem decDataChar_of_pos_one (h3 : s.dec.pad3 = false) (h : s.dec.pos = 1) :
    decDataChar c v s = s.takeDec.setDec { s.dec with acc := accSecond s.dec.acc v, pos := 2 } := by
  simp [decDataChar, h3, h]

theorem decDataChar_of_pos_two (h3 : s.dec.pad3 = false) (h : s.dec.pos = 2) :
    decDataChar c v s = s.takeDec.setDec { s.dec with acc := accThird s.dec.acc v, pos := 3 } := by
  simp [decDataChar, h3, h]

theorem decDataChar_of_pos_three (h3 : s.dec.pad3 = false) (h : s.dec.pos = 3) :
    decDataChar c v s = s.stageThen c (groupBytes3 (groupOfAcc s.dec.acc v)) s.dec.nextGroup := by
  simp [decDataChar, h3, h]

end

/-- Settles O24: each clause is the branch that `DEC.DATA` takes, then the position's equation of a pad or of a data
character, and at a group's end `STAGE` with room and without. -/
theorem decDataResult : Obligations.DecDataResult := by
  intro c s
  refine ⟨exec_decData_of_err, exec_decData_of_invalid_or_closed, fun he hc => ⟨fun hk => ?pad, fun v hk => ?data⟩⟩
  case pad =>
    rw [exec_decData_of_pad he hc hk]
    refine ⟨fun h => ?_, fun h => ?_, fun bytes h hb => ?_⟩
    · rw [decPadChar_of_early h]; rfl
    · rw [decPadChar_of_pos_two h]; rfl
    · have hbytes : bytes = paddedGroupBytes s.dec := hb
      rw [decPadChar_of_pos_three h, ← hbytes]
      exact ⟨fun hroom => congrArg _ (stageThen_of_room hroom),
        fun _ hcap hlt => congrArg _ (stageThen_of_no_room hcap hlt)⟩
  case data =>
    rw [exec_decData_of_data he hc hk]
    refine ⟨fun h3 => ?_, fun h3 h => ?_, fun h3 h => ?_, fun h3 h => ?_, fun h3 h => ?_⟩
    · rw [decDataChar_of_pad3 h3]; rfl
    · rw [decDataChar_of_pos_zero h3 h]; rfl
    · rw [decDataChar_of_pos_one h3 h]; rfl
    · rw [decDataChar_of_pos_two h3 h]; rfl
    · rw [decDataChar_of_pos_three h3 h]
      exact ⟨fun hroom => congrArg _ (stageThen_of_room hroom),
        fun _ hcap hlt => congrArg _ (stageThen_of_no_room hcap hlt)⟩

/-! ### `DEC.END` -/

theorem DecState.valid_iff (d : DecState) : d.valid = true ↔ d.err = false ∧ d.pos = 0 := by
  simp [DecState.valid]

/-- Settles O26, by the equation of `DEC.END`: the message is valid where no error is latched and `DEC_POS` is 0. -/
theorem decEndResult : Obligations.DecEndResult := by
  intro s
  have hwords : endWords s.dec =
      (if s.dec.err = false ∧ s.dec.pos = 0 then s.dec.stage.map dataWord else []) ++ [eom] := by
    simp only [endWords, DecState.valid_iff]
  calc exec .decEnd s = .next (s.decFinish (endWords s.dec)) := execDecEnd_eq s
    _ = _ := by rw [hwords, State.decFinish, State.emitDec, ← List.append_assoc]; rfl

/-! ### The characters that latch the error -/

/-- The conditions under which R167 has `DEC.DATA c` latch the error: the code is invalid, or comes after a padded
group, or is a pad in position 1 or 2, or is data in position 4 after a pad in position 3. -/
abbrev LatchCondition (c : Byte) (d : DecState) : Prop :=
  classify c = .invalid ∨ d.closed = true ∨ (classify c = .pad ∧ (d.pos = 0 ∨ d.pos = 1)) ∨
    ((∃ v, classify c = .data v) ∧ d.pos = 3 ∧ d.pad3 = true)

/-- A character that latches the error meets one of its conditions; a pad in position 3 puts the next character
in position 4 (R39). -/
theorem latch_condition_of_decNext_err {c : Byte} {d : DecState} (hpad3 : d.pad3 = true → d.pos = 3)
    (he : d.err = false) (h : (decNext c d).err = true) : LatchCondition c d := by
  cases hc : d.closed with
  | true => exact .inr (.inl hc)
  | false =>
    cases hk : classify c with
    | invalid => exact .inl hk
    | pad =>
      obtain hp | hp | hp | hp := pos_cases d.pos
      · exact .inr (.inr (.inl ⟨hk, .inl hp⟩))
      · exact .inr (.inr (.inl ⟨hk, .inr hp⟩))
      · simp [decNext, he, hk, hc, hp, DecState.padThird] at h
      · simp [decNext, he, hk, hc, hp, DecState.closeGroup] at h
    | data v =>
      cases h3 : d.pad3 with
      | true => exact .inr (.inr (.inr ⟨⟨v, hk⟩, hpad3 h3, h3⟩))
      | false =>
        have hopen : (decNext c d).err = false := by
          obtain hp | hp | hp | hp := pos_cases d.pos <;>
            simp [decNext, he, hk, hc, h3, hp, DecState.nextGroup]
        rw [hopen] at h
        cases h

/-- `DEC.DATA` takes the error path under each of those conditions (R167). -/
theorem exec_decData_of_latch_condition {c : Byte} {s : State} (he : s.dec.err = false)
    (h : LatchCondition c s.dec) :
    exec (.decData c) s = .next s.decError := by
  cases hc : s.dec.closed with
  | true => exact exec_decData_of_invalid_or_closed he (.inr hc)
  | false =>
    obtain hk | hclosed | ⟨hk, hp⟩ | ⟨⟨v, hk⟩, -, h3⟩ := h
    · exact exec_decData_of_invalid_or_closed he (.inl hk)
    · exact exec_decData_of_invalid_or_closed he (.inr hclosed)
    · rw [exec_decData_of_pad he hc hk, decPadChar_of_early hp]
    · rw [exec_decData_of_data he hc hk, decDataChar_of_pad3 h3]

/-- A `DEC.DATA` after which the error is latched, and was not before, took its word and latched it. -/
theorem decNext_err_of_exec {c : Byte} {s t : State} (he : s.dec.err = false) (ht : t.dec.err = true)
    (h : exec (.decData c) s = .next t) : (decNext c s.dec).err = true := by
  obtain ⟨rfl, -⟩ | ⟨rfl, -⟩ := execDecData_next h
  · exact ht
  · exact absurd (he.symm.trans ht) Bool.false_ne_true

/-- Settles O25: the conditions of R167 give the error path, and a step that ends in the latched state can only have met
one of them; a `DEC.END` off position 0 finds no valid message. -/
theorem errorPathConditions : Obligations.ErrorPathConditions := by
  refine ⟨fun c s hinv he => ⟨exec_decData_of_latch_condition he, fun h => ?_⟩, fun s hp => ?_⟩
  · obtain ⟨hpad3, -⟩ := hinv
    exact latch_condition_of_decNext_err hpad3 he (decNext_err_of_exec he rfl h)
  · rw [decEndResult s, if_neg fun h => hp h.2, List.append_nil]

end Sys2Proof.Machine
end

section
/-! SUPPORT. The proof of O44: what the decoder has put out, popped or queued, grows only where it takes an `END`. -/

namespace Sys2Proof.Machine

/-- The decoder's own turn keeps its output queue, or takes an `END` (R171). -/
theorem engineTurn_dec_decOq {s t : State} (h : engineTurn .dec s = .next t) :
    t.decOq = s.decOq ∨ ∃ w q, s.decIq = w :: q ∧ kind w = 0b01#2 := by
  obtain ⟨hwait, -⟩ | ⟨w, q, -, hq, ⟨-, -, hres⟩ | ⟨-, hdata⟩ | ⟨hk, -⟩⟩ := engineTurn_dec_cases s
  · cases hwait.symm.trans h
    exact .inl rfl
  · cases hres.symm.trans h
    exact .inl rfl
  · obtain ⟨rfl, -⟩ | ⟨rfl, -⟩ := execDecData_next (hdata.symm.trans h)
    · exact .inl rfl
    · exact .inl rfl
  · exact .inr ⟨w, q, hq, hk⟩

/-- No turn makes the words the decoder has put out more, but the decoder's own at an `END` (R171). -/
theorem takeTurn_decOutput {u : Turn} {s t : State} (h : takeTurn u s = .next t) :
    (t.decPopped ++ t.decOq).length ≤ (s.decPopped ++ s.decOq).length ∨
      (u = .dec ∧ ∃ w q, s.decIq = w :: q ∧ kind w = 0b01#2) := by
  obtain ⟨-, rfl⟩ | ⟨a, -, rfl⟩ | ⟨-, ⟨-, henc⟩ | ⟨hu, hdec⟩ | ⟨w, -, rfl⟩ | ⟨w, -, rfl⟩ | ⟨-, w, q, -, rfl⟩ |
    ⟨-, w, q, hq, rfl⟩⟩ := takeTurn_next h
  · simp
  · cases a <;> simp
  · rw [engineTurn_enc_frame henc]
    exact .inl le_rfl
  · obtain hsame | hend := engineTurn_dec_decOq hdec
    · left
      rw [engineTurn_dec_frame hdec, hsame]
    · exact .inr ⟨hu, hend⟩
  · exact .inl le_rfl
  · exact .inl le_rfl
  · exact .inl le_rfl
  · simp [hq, Nat.add_assoc, Nat.add_comm]

/-- Settles O44: a step is the head turn of the schedule, and only the decoder's own at an `END` puts out more. -/
theorem decoderEmitsOnlyAtEnd : Obligations.DecoderEmitsOnlyAtEnd := by
  intro s t h hlt
  obtain ⟨-, rfl⟩ | ⟨u, rest, hs, ht⟩ := step_next h
  · exact absurd hlt (lt_irrefl _)
  · obtain hle | ⟨rfl, w, q, hq, hk⟩ := takeTurn_decOutput ht
    · exact absurd hlt hle.not_gt
    · exact ⟨w, q, by rw [hs]; rfl, hq, hk⟩

end Sys2Proof.Machine
end

section
/-! SUPPORT. The proofs of O19 and O57: the texts `DECODE` answers the sentinel for, and the message of such a text. -/

namespace Sys2Proof.Machine

/-! ### A pad before the run at the end -/

/-- A pad outside the run of pads at the end makes the text malformed (R160). -/
theorem malformed_of_pad_at {t : List Byte} {i : Nat} (hi : i + padRun t < t.length)
    (hpad : classify (t.getD i 0) = .pad) : malformed t = true := by
  have hlt : i < (t.take (t.length - padRun t)).length := by
    rw [List.length_take]
    omega
  have hget : (t.take (t.length - padRun t))[i] = t.getD i 0 := by
    rw [List.getElem_take, List.getElem_eq_getD 0]
  exact (malformed_iff t).2 (.inr (.inr (.inr ⟨_, List.getElem_mem hlt, hget ▸ hpad⟩)))

/-- The characters of the run at the end are pads. -/
theorem getD_of_padRun {t : List Byte} {j : Nat} (hj : j < t.length) (hrun : t.length ≤ j + padRun t) :
    t.getD j 0 = padChar := by
  have hmem : t[j] ∈ t.drop (t.length - padRun t) :=
    List.mem_drop_iff_getElem.2 ⟨j - (t.length - padRun t), by omega, by congr 1; omega⟩
  rw [drop_padRun] at hmem
  rw [← List.getElem_eq_getD (h := hj) 0, List.eq_of_mem_replicate hmem]

/-- A pad in position 1 or 2 of a group cannot stand in a run of two pads that ends a whole number of groups. -/
theorem malformed_of_pad_early {t : List Byte} {i : Nat} (hi : i < t.length) (hpos : i % 4 < 2)
    (hpad : classify (t.getD i 0) = .pad) : malformed t = true := by
  by_cases hlen : t.length % 4 = 0
  · by_cases hrun : 2 < padRun t
    · exact malformed_of_pads hrun
    · exact malformed_of_pad_at (by omega) hpad
  · exact malformed_of_length hlen

/-- A pad before a character that is no pad cannot stand in the run at the end, for that character does not. -/
theorem malformed_of_pad_then_other {t : List Byte} {i j : Nat} (hij : i < j) (hj : j < t.length)
    (hpad : classify (t.getD i 0) = .pad) (hother : classify (t.getD j 0) ≠ .pad) : malformed t = true := by
  have hout : j + padRun t < t.length := by
    by_contra hrun
    exact hother (by rw [getD_of_padRun hj (by omega), classify_padChar])
  exact malformed_of_pad_at (by omega) hpad

/-- Settles O19: under each condition but the first the text is malformed, and `DECODE` answers the sentinel. -/
theorem invalidTextGivesSentinel : Obligations.InvalidTextGivesSentinel := fun _ =>
  ⟨fun h => h ▸ decodeRef_nil,
    fun h => decodeRef_of_malformed (malformed_of_length h),
    fun _ hc h => decodeRef_of_malformed (malformed_of_invalid hc h),
    fun h => decodeRef_of_malformed (malformed_of_pads h),
    fun _ hi h => decodeRef_of_malformed (malformed_of_pad_at hi h),
    fun _ hi hpos h => decodeRef_of_malformed (malformed_of_pad_early hi hpos h),
    fun _ _ hij hj h hother => decodeRef_of_malformed (malformed_of_pad_then_other hij hj h hother)⟩

/-! ### A whole message -/

/-- A message within the capacity puts out `DECODE` of its text and `EOM`, and leaves the decoder idle (R170, R175). -/
theorem runInstrs_decMessage {t : List Byte} {s : State} (hd : s.dec = DecState.idle)
    (hfits : s.messageFits t.length = true) :
    runInstrs (decMessage t) s = .next { s with
      decIq := s.decIq.drop (t.length + 1)
      decOq := s.decOq ++ ((decodeRef t).map dataWord ++ [eom]) } := by
  have hchars := runInstrs_decData (State.roomFor_of_messageFits hd hfits)
  rw [decMessage, runInstrs_append hchars, runInstrs_cons_of_next (i := .decEnd) (execDecEnd_eq _), runInstrs_nil, hd,
    endWords_fold]
  simp [State.decFinish, State.takeDec, State.emitDec, State.setDec, ← hd]

/-- The empty message is within every capacity (R170). -/
theorem messageFits_zero (s : State) : s.messageFits 0 = true := by
  cases h : s.cfg.decStageCap <;> simp [State.messageFits, h]

/-- A message whose `DECODE` is empty puts out `EOM` alone (R172). -/
theorem runInstrs_decMessage_of_empty {t : List Byte} {s : State} (hd : s.dec = DecState.idle)
    (hfits : s.messageFits t.length = true) (h : decodeRef t = []) :
    runInstrs (decMessage t) s =
      .next { s with decIq := s.decIq.drop (t.length + 1), decOq := s.decOq ++ [eom] } := by
  rw [runInstrs_decMessage hd hfits, h]
  rfl

/-- Settles O57: `DECODE` of a malformed text is empty, as that of the empty text is. -/
theorem invalidMessageLooksEmpty : Obligations.InvalidMessageLooksEmpty := fun _ s hd hfits hm =>
  ⟨runInstrs_decMessage_of_empty hd hfits (decodeRef_of_malformed hm),
    runInstrs_decMessage_of_empty hd (messageFits_zero s) decodeRef_nil⟩

end Sys2Proof.Machine
end

section
/-! SUPPORT. The proofs of O3, O6, O2, O4 and O7: an instruction's word and an assembler line's words, decoded. -/

namespace Sys2Proof

/-! ### Decode of encode, and encode of decode -/

/-- An instruction's word decodes to it on its own port (R78, R83). -/
@[simp] theorem decodeIw_encode : ∀ i : Instr, decodeIw i.engine (encode i) = .instr i
  | .encData b => decodeIw_enc_dataWord b
  | .encEnd => decodeIw_enc_endWord
  | .decData c => decodeIw_dec_dataWord c
  | .decEnd => decodeIw_dec_endWord

/-- A word of `KIND` 0b00 is the data word of its payload (R71). -/
theorem dataWord_payload {w : PortWord} (h : kind w = 0b00#2) : dataWord (payload w) = w := by
  rw [dataWord, ← h, kind_append_payload]

/-- A word that decodes to an instruction is on that instruction's port, and is its word or an `END` word (R72, R81). -/
theorem encode_of_decodeIw {p : Engine} {w : PortWord} {i : Instr} (h : decodeIw p w = .instr i) :
    i.engine = p ∧ (encode i = w ∨ kind w = 0b01#2 ∧ encode i = endWord) := by
  cases p with
  | enc =>
    obtain ⟨hk, hd⟩ | ⟨hk, hd⟩ | ⟨-, -, hd⟩ := Machine.decodeIw_enc_cases w
    · cases hd.symm.trans h
      exact ⟨rfl, .inl (dataWord_payload hk)⟩
    · cases hd.symm.trans h
      exact ⟨rfl, .inr ⟨hk, rfl⟩⟩
    · cases hd.symm.trans h
  | dec =>
    obtain ⟨hk, hd⟩ | ⟨hk, hd⟩ | ⟨-, -, hd⟩ := Machine.decodeIw_dec_cases w
    · cases hd.symm.trans h
      exact ⟨rfl, .inl (dataWord_payload hk)⟩
    · cases hd.symm.trans h
      exact ⟨rfl, .inr ⟨hk, rfl⟩⟩
    · cases hd.symm.trans h

/-- Settles O3: an encoded instruction decodes to itself, and a word that decodes is its instruction's but for the
payload of an `END`. -/
theorem encodeAndDecodeAgree : Obligations.EncodeAndDecodeAgree :=
  ⟨decodeIw_encode, fun _ _ _ => encode_of_decodeIw⟩

/-! ### The words of an assembler line -/

/-- A line is assembled into the words of its expansion, each on its instruction's port (R83). -/
theorem assemble_of_expand {l : AsmLine} {is : List Instr} (h : l.expand = some is) :
    l.assemble = some (is.map fun i => (i.engine, encode i)) := by
  rw [AsmLine.assemble, h, Option.map_some]

/-- A line that may be written has an expansion (R83, R84). -/
theorem expand_of_wf {l : AsmLine} (h : l.wf = true) : ∃ is, l.expand = some is := by
  cases l with
  | bareEnd => cases h
  | _ => exact ⟨_, if_pos h⟩

/-- Settles O6: the words of a line are those of its expansion, and each decodes to its instruction. -/
theorem assembledLineDecodesToItsExpansion : Obligations.AssembledLineDecodesToItsExpansion := by
  intro l h
  obtain ⟨is, his⟩ := expand_of_wf h
  refine ⟨is, _, his, assemble_of_expand his, ?_⟩
  rw [List.map_map]
  exact List.map_congr_left fun i _ => decodeIw_encode i

/-- A data line with a number in range, or with a character of plain ASCII, stands for one instruction (R83). -/
theorem expand_dataLine_number {n : Nat} (h : n < 256) :
    (AsmLine.encData (.number n)).expand = some [.encData (BitVec.ofNat 8 n)] ∧
    (AsmLine.decData (.number n)).expand = some [.decData (BitVec.ofNat 8 n)] :=
  ⟨if_pos ((payloadFits_iff n).2 h), if_pos ((payloadFits_iff n).2 h)⟩

theorem expand_dataLine_quoted {c : Char} (h : c.toNat < 128) :
    (AsmLine.encData (.quoted c)).expand = some [.encData (BitVec.ofNat 8 c.toNat)] ∧
    (AsmLine.decData (.quoted c)).expand = some [.decData (BitVec.ofNat 8 c.toNat)] := by
  rw [← charCode_of_ascii h]
  exact ⟨if_pos ((isAscii_iff c).2 h), rfl⟩

/-- Settles O4: each line's words are those of its one instruction. -/
theorem assemblerLineWords : Obligations.AssemblerLineWords := by
  refine ⟨fun n h => ?_, fun c h => ?_, rfl, rfl⟩
  · obtain ⟨henc, hdec⟩ := expand_dataLine_number h
    exact ⟨assemble_of_expand henc, assemble_of_expand hdec⟩
  · obtain ⟨henc, hdec⟩ := expand_dataLine_quoted h
    exact ⟨assemble_of_expand henc, assemble_of_expand hdec⟩

/-! ### Every payload of an `END` word, and sample words -/

theorem kind_append (k : BitVec 2) (x : Byte) : kind (k ++ x) = k :=
  BitVec.extractLsb'_append_eq_left

/-- Settles O2: `END` is selected by `KIND`, which the payload does not touch. -/
theorem endPayloadIsIgnored : Obligations.EndPayloadIsIgnored :=
  ⟨fun x => decodeIw_of_kind_end (kind_append 0b01#2 x), rfl, rfl⟩

/-- Settles O7: eight closed words, by evaluation of the decoder. -/
theorem sampleWordsDecode : Obligations.SampleWordsDecode := by
  unfold Obligations.SampleWordsDecode
  decide

end Sys2Proof
end

section
/-! SUPPORT. The proofs of O21, O16, O17, O18 and O20: `ENCODE` three bytes at a time, `DECODE` as the concatenation of its
groups, and `DECODE` of `ENCODE`. -/

namespace Sys2Proof.Machine

/-! ### The round trip -/

/-- The sextets a 1-byte tail does not write are zero, so its two characters make up its group (R132). -/
theorem groupOfSextets_tail1 (a : Byte) :
    groupOfSextets (sextet0 (groupOfBytes a 0 0)) (sextet1 (groupOfBytes a 0 0)) 0 0 = groupOfBytes a 0 0 := by
  have h2 : sextet2 (groupOfBytes a 0 0) = 0 := by rw [sextet2_groupOfBytes]; rfl
  have h3 : sextet3 (groupOfBytes a 0 0) = 0 := by rw [sextet3_groupOfBytes]; rfl
  calc groupOfSextets (sextet0 (groupOfBytes a 0 0)) (sextet1 (groupOfBytes a 0 0)) 0 0
      = groupOfSextets (sextet0 (groupOfBytes a 0 0)) (sextet1 (groupOfBytes a 0 0))
          (sextet2 (groupOfBytes a 0 0)) (sextet3 (groupOfBytes a 0 0)) := by rw [h2, h3]
    _ = groupOfBytes a 0 0 := groupOfSextets_sextets _

/-- The sextet a 2-byte tail does not write is zero, so its three characters make up its group (R132). -/
theorem groupOfSextets_tail2 (a b : Byte) :
    groupOfSextets (sextet0 (groupOfBytes a b 0)) (sextet1 (groupOfBytes a b 0)) (sextet2 (groupOfBytes a b 0)) 0 =
      groupOfBytes a b 0 := by
  have h3 : sextet3 (groupOfBytes a b 0) = 0 := by rw [sextet3_groupOfBytes]; rfl
  calc groupOfSextets (sextet0 (groupOfBytes a b 0)) (sextet1 (groupOfBytes a b 0)) (sextet2 (groupOfBytes a b 0)) 0
      = groupOfSextets (sextet0 (groupOfBytes a b 0)) (sextet1 (groupOfBytes a b 0))
          (sextet2 (groupOfBytes a b 0)) (sextet3 (groupOfBytes a b 0)) := by rw [h3]
    _ = groupOfBytes a b 0 := groupOfSextets_sextets _

/-- A full group's four characters in front of a text change nothing in whether it is malformed. -/
theorem malformed_groupChars (g : Group) (t : List Byte) : malformed (groupChars g ++ t) = malformed t :=
  malformed_group (classify_fwd _) (classify_fwd _) (classify_fwd _) (classify_fwd _) t

/-- They decode to the group's bytes (R130, R160). -/
theorem decodeRef_groupChars (g : Group) {t : List Byte} (hm : malformed t = false) :
    decodeRef (groupChars g ++ t) = groupBytes3 g ++ decodeRef t := by
  have h : decodeRef (groupChars g ++ t) =
      groupBytes3 (groupOfSextets (sextet0 g) (sextet1 g) (sextet2 g) (sextet3 g)) ++ decodeRef t :=
    decodeRef_group (classify_fwd _) (classify_fwd _) (classify_fwd _) (classify_fwd _) hm
  rw [h, groupOfSextets_sextets]

/-- What `ENCODE` gives is not malformed. -/
theorem malformed_encodeRef (b : List Byte) : malformed (encodeRef b) = false := by
  induction b using list_three_induction with
  | nil => rfl
  | one a => rw [encodeRef_one]; exact (decodeRef_twoPads _ _).1
  | two a b => rw [encodeRef_two]; exact (decodeRef_onePad _ _ _).1
  | group a b c rest ih => rw [encodeRef_group, malformed_groupChars, ih]

/-- Settles O21, three bytes at a time: a full group gives its bytes back, and so does either tail, whose unwritten
sextets are zero. -/
theorem decodeOfEncodeIsIdentity : Obligations.DecodeOfEncodeIsIdentity := by
  intro b
  induction b using list_three_induction with
  | nil => rfl
  | one a =>
    rw [encodeRef_one]
    refine (decodeRef_twoPads _ _).2.trans ?_
    rw [groupOfSextets_tail1, groupBytes1, byte0_groupOfBytes]
  | two a b =>
    rw [encodeRef_two]
    refine (decodeRef_onePad _ _ _).2.trans ?_
    rw [groupOfSextets_tail2, groupBytes2, byte0_groupOfBytes, byte1_groupOfBytes]
  | group a b c rest ih =>
    rw [encodeRef_group, decodeRef_groupChars _ (malformed_encodeRef rest), ih, groupBytes3, byte0_groupOfBytes,
      byte1_groupOfBytes, byte2_groupOfBytes]
    rfl

/-! ### `ENCODE`: its length and its padding -/

theorem encodeRef_length (b : List Byte) : (encodeRef b).length = 4 * ((b.length + 2) / 3) := by
  induction b using list_three_induction with
  | nil => rfl
  | one a => simp [encodeRef_one, tailChars1]
  | two a b => simp [encodeRef_two, tailChars2]
  | group a b c rest ih =>
    have hfour : (groupChars (groupOfBytes a b c)).length = 4 := rfl
    rw [encodeRef_group, List.length_append, hfour, ih]
    simp only [List.length_cons]
    omega

/-- Settles O16, by `encodeRef_length`: a message that is not empty has at least one group. -/
theorem encodeLength : Obligations.EncodeLength := by
  intro b
  refine ⟨encodeRef_length b, fun h => ?_⟩
  have hb : 0 < b.length := List.length_pos_iff.2 h
  rw [encodeRef_length]
  omega

/-- How many pads `ENCODE` of `n` bytes ends in (R137). -/
def encodePads (n : Nat) : Nat := if n % 3 = 1 then 2 else if n % 3 = 2 then 1 else 0

theorem encodePads_add_three (n : Nat) : encodePads (n + 3) = encodePads n := by
  simp [encodePads]

/-- The four sextets of a group, in order (R132). -/
def groupSextets (g : Group) : List Sextet := [sextet0 g, sextet1 g, sextet2 g, sextet3 g]

theorem groupChars_eq_map_fwd (g : Group) : groupChars g = (groupSextets g).map fwd := rfl

/-- `ENCODE` is data characters, then its pads (R137). -/
theorem encodeRef_eq_fwd_append_pads (b : List Byte) :
    ∃ cs : List Sextet, encodeRef b = cs.map fwd ++ List.replicate (encodePads b.length) padChar := by
  induction b using list_three_induction with
  | nil => exact ⟨[], rfl⟩
  | one a =>
    refine ⟨[sextet0 (groupOfBytes a 0 0), sextet1 (groupOfBytes a 0 0)], ?_⟩
    rw [encodeRef_one]; rfl
  | two a b =>
    refine ⟨[sextet0 (groupOfBytes a b 0), sextet1 (groupOfBytes a b 0), sextet2 (groupOfBytes a b 0)], ?_⟩
    rw [encodeRef_two]; rfl
  | group a b c rest ih =>
    obtain ⟨cs, hcs⟩ := ih
    refine ⟨groupSextets (groupOfBytes a b c) ++ cs, ?_⟩
    have hlen : (a :: b :: c :: rest).length = rest.length + 3 := rfl
    rw [encodeRef_group, hcs, groupChars_eq_map_fwd, hlen, encodePads_add_three, List.map_append, List.append_assoc]

/-- Settles O18: the data characters are entries of `FWD`, none of which is the pad. -/
theorem encodePadding : Obligations.EncodePadding := by
  intro b
  obtain ⟨cs, hcs⟩ := encodeRef_eq_fwd_append_pads b
  refine ⟨cs, hcs, fun c hc => ?_⟩
  obtain ⟨s, -, rfl⟩ := List.mem_map.1 hc
  exact fwd_ne_padChar s

/-! ### `DECODE`: its length and the bits it drops -/

theorem padRun_le_two_of_not_malformed {t : List Byte} (h : malformed t = false) : padRun t ≤ 2 :=
  not_lt.1 fun hlt => by simp [malformed_of_pads hlt] at h

/-- A text that is not malformed decodes group by group (R160); the empty text has no group. -/
theorem decodeRef_of_not_malformed {t : List Byte} (h : malformed t = false) :
    decodeRef t = (List.range (t.length / 4)).flatMap (decodeGroup t (padRun t)) := by
  by_cases ht : t = []
  · subst ht; rfl
  · rw [decodeRef, if_neg ht, h, if_neg Bool.false_ne_true]

/-- Every group but the last has three bytes. -/
theorem decodeGroup_length_of_lt {t : List Byte} {k : Nat} (p : Nat) (h : k + 1 < t.length / 4) :
    (decodeGroup t p k).length = 3 := by
  rw [decodeGroup, if_pos (.inl h)]; rfl

/-- The last has one byte less for each pad. -/
theorem decodeGroup_length_of_last {t : List Byte} {p k : Nat} (hp : p ≤ 2) (h : t.length / 4 = k + 1) :
    (decodeGroup t p k).length = 3 - p := by
  interval_cases p <;> simp [decodeGroup, h, groupBytes1, groupBytes2, groupBytes3]

theorem decodeRef_length_of_not_malformed {t : List Byte} (hm : malformed t = false) :
    (decodeRef t).length = 3 * (t.length / 4) - padRun t := by
  have hp := padRun_le_two_of_not_malformed hm
  rw [decodeRef_of_not_malformed hm]
  cases hn : t.length / 4 with
  | zero => simp
  | succ m =>
    have hfull : (List.range m).map (fun k => (decodeGroup t (padRun t) k).length) = List.replicate m 3 := by
      refine List.eq_replicate_iff.2 ⟨by simp, fun l hl => ?_⟩
      obtain ⟨k, hk, rfl⟩ := List.mem_map.1 hl
      exact decodeGroup_length_of_lt _ (by rw [hn]; exact Nat.succ_lt_succ (List.mem_range.1 hk))
    rw [List.range_succ, List.flatMap_append, List.length_append, List.length_flatMap, hfull, List.sum_replicate,
      List.flatMap_singleton, decodeGroup_length_of_last hp hn, smul_eq_mul]
    omega

/-- Settles O17: the groups' lengths add up for a text that is not malformed, and any other decodes to nothing. -/
theorem decodeLength : Obligations.DecodeLength := by
  intro t
  refine ⟨decodeRef_length_of_not_malformed, ?_⟩
  cases hm : malformed t with
  | false => exact (decodeRef_length_of_not_malformed hm).trans_le (Nat.sub_le _ _)
  | true => rw [decodeRef_of_malformed hm]; exact Nat.zero_le _

theorem decodeRef_twoPads_bits (a b : Sextet) :
    decodeRef [fwd a, fwd b, padChar, padChar] = [a ++ b.extractLsb' 4 2] := by
  rw [(decodeRef_twoPads a b).2, groupBytes1, byte0_groupOfSextets]

theorem decodeRef_onePad_bits (a b v : Sextet) :
    decodeRef [fwd a, fwd b, fwd v, padChar] =
      [a ++ b.extractLsb' 4 2, b.extractLsb' 0 4 ++ v.extractLsb' 2 4] := by
  rw [(decodeRef_onePad a b v).2, groupBytes2, byte0_groupOfSextets, byte1_groupOfSextets]

/-- Settles O20: the bytes of a padded group do not have the dropped bits; `"QR=="` and `"QQ=="` are the sextets 16, 17
and 16, 16. -/
theorem droppedBitsAreNotChecked : Obligations.DroppedBitsAreNotChecked :=
  ⟨decodeRef_twoPads_bits, decodeRef_onePad_bits, decodeRef_twoPads_bits 16 17, decodeRef_twoPads_bits 16 16⟩

end Sys2Proof.Machine
end

section
/-! SUPPORT. The proofs of O8, O9, O11, O13, O14 and O15: the ROMs' contents, and the bits of a group. -/

namespace Sys2Proof.Machine

/-! ### The ROMs -/

/-- Settles O8: the ROM's length, and its 64 entries by evaluation. -/
theorem forwardRomContents : Obligations.ForwardRomContents :=
  ⟨fwdRom_length, by decide⟩

/-- Settles O9: `classify` gives each entry's index back, and calls none of them a pad. -/
theorem forwardRomIsOneToOne : Obligations.ForwardRomIsOneToOne :=
  ⟨fun _ _ h => fwd_injective h, fwd_ne_padChar⟩

/-- Settles O13: what `classify` says of an entry, and whose entry a code it calls data is. -/
theorem romsAreInverse : Obligations.RomsAreInverse :=
  ⟨classify_fwd, fun _ _ h => (fwd_of_classify h).symm⟩

/-- Settles O11: the table of 256 codes, and the count over it, by evaluation. -/
theorem inverseRomByCodeRanges : Obligations.InverseRomByCodeRanges :=
  ⟨by decide, by decide +kernel⟩

/-! ### The bits of a group -/

/-- Settles O14: the sextets of a group read off its bytes; a tail's missing bytes are zero. -/
theorem sextetsOfAGroup : Obligations.SextetsOfAGroup := fun b0 b1 b2 =>
  ⟨sextet0_groupOfBytes b0 b1 b2, sextet1_groupOfBytes b0 b1 b2, sextet2_groupOfBytes b0 b1 b2,
    sextet3_groupOfBytes b0 b1 b2, sextet0_groupOfBytes b0 0 0, sextet1_groupOfBytes b0 0 0,
    sextet0_groupOfBytes b0 b1 0, sextet1_groupOfBytes b0 b1 0, sextet2_groupOfBytes b0 b1 0⟩

/-- Settles O15: the bytes of a group read off its sextets; a pad counts as zero. -/
theorem bytesOfAGroup : Obligations.BytesOfAGroup := by
  intro s0 s1 s2 s3
  refine ⟨?_, ?_, ?_⟩
  · rw [groupBytes3, byte0_groupOfSextets, byte1_groupOfSextets, byte2_groupOfSextets]
  · rw [groupBytes2, byte0_groupOfSextets, byte1_groupOfSextets]
  · rw [groupBytes1, byte0_groupOfSextets]

end Sys2Proof.Machine
end

section
/-! SUPPORT. The proofs of O27, O28, O29 and O30: an instruction's frame, the instructions that answer, and the latched
decoder. -/

namespace Sys2Proof.Machine

/-- Settles O28: each next state of an encoder instruction writes the encoder's fields, takes the head word, and
appends to `ENC_OQ` at most. -/
theorem encoderInstructionFrame : Obligations.EncoderInstructionFrame := by
  refine ⟨fun b s t h => ?_, fun s t h => ?_⟩
  · obtain ⟨-, rfl⟩ | ⟨-, rfl⟩ | ⟨h2, rfl⟩ := execEncData_next h
    · exact ⟨⟨rfl, rfl, rfl, rfl⟩, ⟨rfl, rfl, rfl, rfl, rfl⟩, rfl, rfl, List.prefix_rfl, fun _ => rfl⟩
    · exact ⟨⟨rfl, rfl, rfl, rfl⟩, ⟨rfl, rfl, rfl, rfl, rfl⟩, rfl, rfl, List.prefix_rfl, fun _ => rfl⟩
    · exact ⟨⟨rfl, rfl, rfl, rfl⟩, ⟨rfl, rfl, rfl, rfl, rfl⟩, rfl, rfl, List.prefix_append _ _,
        fun hne => absurd h2 hne⟩
  · obtain ⟨-, rfl⟩ := execEncEnd_next h
    exact ⟨⟨rfl, rfl, rfl, rfl⟩, ⟨rfl, rfl, rfl, rfl, rfl⟩, rfl, rfl, List.prefix_append _ _⟩

/-- Settles O29: `DEC.DATA` takes its word or adds the one fault, and `DEC.END` takes its word and appends. -/
theorem decoderInstructionFrame : Obligations.DecoderInstructionFrame := by
  refine ⟨fun c s t h => ?_, fun s t h => ?_⟩
  · obtain ⟨rfl, -⟩ | ⟨rfl, -⟩ := execDecData_next h
    · exact ⟨⟨rfl, rfl, rfl, rfl⟩, ⟨rfl, rfl, rfl, rfl, rfl⟩, rfl, .inl ⟨rfl, rfl⟩⟩
    · exact ⟨⟨rfl, rfl, rfl, rfl⟩, ⟨rfl, rfl, rfl, rfl, rfl⟩, rfl, .inr ⟨rfl, rfl, rfl⟩⟩
  · cases (execDecEnd_eq s).symm.trans h
    exact ⟨⟨rfl, rfl, rfl, rfl⟩, ⟨rfl, rfl, rfl, rfl, rfl⟩, rfl, rfl, List.prefix_append _ _⟩

/-- At `ENC_CNT` = 3 the encoder's instructions stop the model (log 10). -/
theorem exec_enc_of_cnt_three {s : State} (h : s.enc.cnt = 3) (b : Byte) :
    exec (.encData b) s = .fault .encCountThree ∧ exec .encEnd s = .fault .encCountThree := by
  simp [exec, execEncData, execEncEnd, h]

/-- Settles O30, by the equation of each instruction. -/
theorem instructionsComplete : Obligations.InstructionsComplete :=
  ⟨fun c s => ⟨_, execDecData_eq c s⟩, fun s => ⟨_, execDecEnd_eq s⟩, fun b _ h => execEncData_complete h b,
    fun _ h => ⟨_, execEncEnd_eq h⟩, fun b _ h => exec_enc_of_cnt_three h b⟩

/-- Settles O27, by induction on the characters: each is taken and the latch stays. -/
theorem latchedDecoderIgnoresCharacters : Obligations.LatchedDecoderIgnoresCharacters := by
  intro t
  induction t with
  | nil => intro s _; rfl
  | cons c t ih =>
    intro s h
    rw [List.map_cons, runInstrs_cons_of_next (exec_decData_of_err h), ih s.takeDec h, State.takeDec, List.drop_tail]
    rfl

end Sys2Proof.Machine
end

section
/-! SUPPORT. The proofs of O31, O34, O35, O36, O37 and O38: one turn of each actor. -/

namespace Sys2Proof.Machine

/-! ### An engine's turn -/

/-- The turn of an engine with no fault and an instruction at the head of its queue runs it (R56, R206). -/
theorem takeTurn_own_of_instr {e : Engine} {s : State} {w : PortWord} {q : List PortWord} {i : Instr}
    (hr : s.resetIn = false) (hf : s.faultsOf e = []) (hq : s.inputQueue e = w :: q) (hd : decodeIw e w = .instr i) :
    takeTurn (engineOwnTurn e) s = exec i s :=
  (takeTurn_own hr).trans (engineTurn_of_instr hf hq hd)

/-- The turn of an engine with a fault, or with no word, passes (R204, R216; log 4). -/
theorem takeTurn_own_of_waits {e : Engine} {s : State} (hr : s.resetIn = false)
    (h : s.faultsOf e ≠ [] ∨ s.inputQueue e = []) : takeTurn (engineOwnTurn e) s = .next s :=
  (takeTurn_own hr).trans (engineTurn_of_waits h)

/-- Settles O31: the step is the engine's turn, off the schedule, and that runs the decoded head word. -/
theorem stepRunsDecodedInstruction : Obligations.StepRunsDecodedInstruction := by
  intro e s w q rest i hr hs hf hq hd
  have hf' : State.faultsOf { s with schedule := rest } e = [] := by cases e <;> exact hf
  have hq' : State.inputQueue { s with schedule := rest } e = w :: q := by cases e <;> exact hq
  rw [step_of_schedule hs]
  exact takeTurn_own_of_instr hr hf' hq' hd

/-- Settles O34: with no word the turn passes; a pushed word is the head of the queue that was empty. -/
theorem engineWithEmptyQueueWaits : Obligations.EngineWithEmptyQueueWaits := by
  intro e s hr hq
  refine ⟨takeTurn_own_of_waits hr (.inr hq), ?_⟩
  intro i hi hf
  have hd : decodeIw e (encode i) = .instr i := hi ▸ decodeIw_encode i
  cases e with
  | enc => exact ⟨fun _ => takeTurn_own_of_instr hr hf (congrArg (· ++ [encode i]) hq) hd, nofun⟩
  | dec => exact ⟨nofun, fun _ => takeTurn_own_of_instr hr hf (congrArg (· ++ [encode i]) hq) hd⟩

/-! ### The host's turns and the reset input -/

theorem takeTurn_pushEnc {s : State} (hr : s.resetIn = false) (w : PortWord) :
    takeTurn (.pushEnc w) s = .next (s.pushEnc w) :=
  unlessReset_of_released hr fun s => .next (s.pushEnc w)

theorem takeTurn_pushDec {s : State} (hr : s.resetIn = false) (w : PortWord) :
    takeTurn (.pushDec w) s = .next (s.pushDec w) :=
  unlessReset_of_released hr fun s => .next (s.pushDec w)

theorem popEncTurn_of_cons {s : State} {w : PortWord} {q : List PortWord} (h : s.encOq = w :: q) :
    popEncTurn s = .next { s with encOq := q, encPopped := s.encPopped ++ [w] } := by
  simp [popEncTurn, h]

theorem popDecTurn_of_cons {s : State} {w : PortWord} {q : List PortWord} (h : s.decOq = w :: q) :
    popDecTurn s = .next { s with decOq := q, decPopped := s.decPopped ++ [w] } := by
  simp [popDecTurn, h]

theorem popEncTurn_of_nil {s : State} (h : s.encOq = []) : popEncTurn s = .refused (.popEmpty .enc) := by
  simp [popEncTurn, h]

theorem popDecTurn_of_nil {s : State} (h : s.decOq = []) : popDecTurn s = .refused (.popEmpty .dec) := by
  simp [popDecTurn, h]

/-- Settles O35: with reset released each turn is the host's operation. -/
theorem hostSteps : Obligations.HostSteps := fun _ hr =>
  ⟨takeTurn_pushEnc hr, takeTurn_pushDec hr,
    fun _ _ h => (unlessReset_of_released hr _).trans (popEncTurn_of_cons h),
    fun _ _ h => (unlessReset_of_released hr _).trans (popDecTurn_of_cons h),
    fun h => (unlessReset_of_released hr _).trans (popEncTurn_of_nil h),
    fun h => (unlessReset_of_released hr _).trans (popDecTurn_of_nil h)⟩

/-- Settles O36: asserting the input is the reset act, field by field. -/
theorem resetActs : Obligations.ResetActs := fun _ => rfl

/-- While reset is asserted every turn that does not move the input is the reset act (R230; log 6). -/
theorem takeTurn_of_reset {s : State} (hr : s.resetIn = true) {u : Turn} (hu : ∀ a, u ≠ .reset a) :
    takeTurn u s = .next s.resetAct := by
  cases u with
  | reset a => exact absurd rfl (hu a)
  | _ => rw [takeTurn, unlessReset_of_reset hr]

/-- Settles O37: a release moves the input only, and any other turn is `takeTurn_of_reset`. -/
theorem assertedResetStopsTheBlock : Obligations.AssertedResetStopsTheBlock := fun _ =>
  ⟨rfl, fun hr _ hu => takeTurn_of_reset hr hu⟩

/-- Settles O38: the fields are those of `State.reset`, and an engine with no word waits. -/
theorem resetStateWaits : Obligations.ResetStateWaits :=
  ⟨rfl, rfl, rfl, rfl, rfl, rfl, ⟨rfl, rfl⟩, takeTurn_own_of_waits (e := .enc) rfl (.inr rfl),
    takeTurn_own_of_waits (e := .dec) rfl (.inr rfl)⟩

end Sys2Proof.Machine
end

section
/-! SUPPORT. What one engine's turn does to its queues and its faults, said once, and the rules about every step that
follow from it: the proofs of O33, O42, O43, O45, O46 and O47. -/

namespace Sys2Proof.Machine

/-! ### An engine's queues in one turn -/

/-- What an engine's turn does to its input and its output queue: nothing; or it takes a word that ends no message and
appends data words of legal characters; or it takes one that ends a message and appends those and `EOM` (R56, R77). -/
inductive QueueStep (legal : Byte → Prop) : (iq oq iq' oq' : List PortWord) → Prop
  | waits (iq oq : List PortWord) : QueueStep legal iq oq iq oq
  | data {w : PortWord} (q oq : List PortWord) (cs : List Byte) (hw : endsMessage w = false)
      (hcs : ∀ c ∈ cs, legal c) : QueueStep legal (w :: q) oq q (oq ++ cs.map dataWord)
  | finish {w : PortWord} (q oq : List PortWord) (cs : List Byte) (hw : endsMessage w = true)
      (hcs : ∀ c ∈ cs, legal c) : QueueStep legal (w :: q) oq q (oq ++ (cs.map dataWord ++ [eom]))

theorem endsMessage_of_kind_data {w : PortWord} (h : kind w = 0b00#2) : endsMessage w = false := by
  simp [endsMessage, h]

/-- The characters of a full group are legal (R75). -/
theorem isOutputChar_of_mem_groupChars {g : Group} {c : Byte} (h : c ∈ groupChars g) : isOutputChar c = true := by
  rw [groupChars_eq_map_fwd] at h
  obtain ⟨s, -, rfl⟩ := List.mem_map.1 h
  exact isOutputChar_map6 s

/-- So are those of the tail that `ENC.END` emits. -/
theorem isOutputChar_of_mem_endTail {e : EncState} {c : Byte} (h : c ∈ endTail e) : isOutputChar c = true := by
  unfold endTail at h
  split at h
  · cases h
  · split at h
    · simp only [tailChars1, List.mem_cons, List.not_mem_nil, or_false] at h
      obtain rfl | rfl | rfl | rfl := h <;> simp only [isOutputChar_map6, isOutputChar_padChar]
    · simp only [tailChars2, List.mem_cons, List.not_mem_nil, or_false] at h
      obtain rfl | rfl | rfl | rfl := h <;> simp only [isOutputChar_map6, isOutputChar_padChar]

theorem engineTurn_enc_queueStep {s t : State} (h : engineTurn .enc s = .next t) :
    QueueStep (isOutputChar · = true) s.encIq s.encOq t.encIq t.encOq := by
  obtain ⟨hwait, -⟩ | ⟨w, q, -, hq, ⟨-, -, hres⟩ | ⟨hk, hdata⟩ | ⟨hk, hend⟩⟩ := engineTurn_enc_cases s
  · cases hwait.symm.trans h
    exact .waits _ _
  · cases hres.symm.trans h
    exact .waits _ _
  · have hnone : QueueStep (isOutputChar · = true) (w :: q) s.encOq q s.encOq := by
      simpa using QueueStep.data q s.encOq [] (endsMessage_of_kind_data hk) (by simp)
    obtain ⟨-, rfl⟩ | ⟨-, rfl⟩ | ⟨-, rfl⟩ := execEncData_next (hdata.symm.trans h)
    · simpa [hq] using hnone
    · simpa [hq] using hnone
    · simpa [hq] using QueueStep.data q s.encOq (groupChars (groupOfHold s.enc.hold (payload w)))
        (endsMessage_of_kind_data hk) fun c => isOutputChar_of_mem_groupChars
  · obtain ⟨-, rfl⟩ := execEncEnd_next (hend.symm.trans h)
    simpa [hq] using QueueStep.finish q s.encOq (endTail s.enc) ((endsMessage_iff w).2 hk)
      fun c => isOutputChar_of_mem_endTail

/-- The staged bytes of a valid message, as data words, and `EOM` (R168). -/
theorem endWords_eq_map_dataWord (d : DecState) :
    endWords d = (if d.valid then d.stage else []).map dataWord ++ [eom] := by
  unfold endWords
  split <;> rfl

theorem engineTurn_dec_queueStep {s t : State} (h : engineTurn .dec s = .next t) :
    QueueStep (fun _ => True) s.decIq s.decOq t.decIq t.decOq := by
  obtain ⟨hwait, -⟩ | ⟨w, q, -, hq, ⟨-, -, hres⟩ | ⟨hk, hdata⟩ | ⟨hk, hend⟩⟩ := engineTurn_dec_cases s
  · cases hwait.symm.trans h
    exact .waits _ _
  · cases hres.symm.trans h
    exact .waits _ _
  · obtain ⟨rfl, -⟩ | ⟨rfl, -⟩ := execDecData_next (hdata.symm.trans h)
    · simpa [hq] using QueueStep.data (legal := fun _ => True) q s.decOq [] (endsMessage_of_kind_data hk) (by simp)
    · exact .waits _ _
  · cases (execDecEnd_eq s).symm.trans (hend.symm.trans h)
    simpa [hq, endWords_eq_map_dataWord] using
      QueueStep.finish (legal := fun _ => True) q s.decOq (if s.dec.valid then s.dec.stage else [])
        ((endsMessage_iff w).2 hk) (by simp)

section
variable {legal : Byte → Prop} {iq oq iq' oq' : List PortWord}

/-- An engine's turn keeps its input queue or takes its head. -/
theorem QueueStep.input (h : QueueStep legal iq oq iq' oq') : iq' = iq ∨ iq' = iq.tail := by
  cases h with
  | waits => exact .inl rfl
  | data => exact .inr rfl
  | finish => exact .inr rfl

theorem QueueStep.mem_input (h : QueueStep legal iq oq iq' oq') {w : PortWord} (hw : w ∈ iq') : w ∈ iq := by
  obtain rfl | rfl := h.input
  · exact hw
  · exact List.mem_of_mem_tail hw

/-- It only appends to its output queue. -/
theorem QueueStep.output (h : QueueStep legal iq oq iq' oq') : oq <+: oq' := by
  cases h with
  | waits => exact List.prefix_rfl
  | data => exact List.prefix_append _ _
  | finish => exact List.prefix_append _ _

/-- What it appends is `EOM` or the data word of a legal character. -/
theorem QueueStep.mem_output (h : QueueStep legal iq oq iq' oq') {w : PortWord} (hw : w ∈ oq') :
    w ∈ oq ∨ w = eom ∨ ∃ c, legal c ∧ w = dataWord c := by
  cases h with
  | waits => exact .inl hw
  | data q oq cs _ hcs =>
    obtain hw | hw := List.mem_append.1 hw
    · exact .inl hw
    · obtain ⟨c, hc, rfl⟩ := List.mem_map.1 hw
      exact .inr (.inr ⟨c, hcs c hc, rfl⟩)
  | finish q oq cs _ hcs =>
    obtain hw | hw := List.mem_append.1 hw
    · exact .inl hw
    · obtain hw | hw := List.mem_append.1 hw
      · obtain ⟨c, hc, rfl⟩ := List.mem_map.1 hw
        exact .inr (.inr ⟨c, hcs c hc, rfl⟩)
      · exact .inr (.inl (List.mem_singleton.1 hw))

@[simp] theorem messageEnds_append (ws vs : List PortWord) :
    messageEnds (ws ++ vs) = messageEnds ws + messageEnds vs := List.countP_append

@[simp] theorem messageEnds_map_dataWord (cs : List Byte) : messageEnds (cs.map dataWord) = 0 := by
  simp [messageEnds]

@[simp] theorem messageEnds_nil : messageEnds [] = 0 := rfl

theorem messageEnds_cons (w : PortWord) (ws : List PortWord) :
    messageEnds (w :: ws) = messageEnds ws + if endsMessage w then 1 else 0 := List.countP_cons

@[simp] theorem messageEnds_eom : messageEnds [eom] = 1 := by decide

/-- It puts out one `EOM` for the `END` it takes, and none for any other word (R77). -/
theorem QueueStep.messageEnds_eq (h : QueueStep legal iq oq iq' oq') :
    messageEnds iq' + messageEnds oq' = messageEnds iq + messageEnds oq := by
  cases h with
  | waits => rfl
  | data q oq cs hw => simp [messageEnds_cons, hw]
  | finish q oq cs hw => simp [messageEnds_cons, hw]; omega

end

/-! ### An engine's faults in one turn -/

theorem inputWordWf_eq_false {w : PortWord} (h0 : kind w ≠ 0b00#2) (h1 : kind w ≠ 0b01#2) : inputWordWf w = false := by
  rw [← Bool.not_eq_true, inputWordWf_iff]
  exact not_or.2 ⟨h0, h1⟩

/-- `ENC`'s turn adds no fault but its first, for a reserved head word (R203, R204). -/
theorem engineTurn_enc_faults {s t : State} (h : engineTurn .enc s = .next t) :
    t.encFaults = s.encFaults ∨ s.encFaults = [] ∧ ∃ w ∈ s.encIq, inputWordWf w = false ∧
      t.encFaults = [⟨.reservedWord, w, none⟩] := by
  obtain ⟨hwait, -⟩ | ⟨w, q, hf, hq, ⟨h0, h1, hres⟩ | ⟨-, hdata⟩ | ⟨-, hend⟩⟩ := engineTurn_enc_cases s
  · cases hwait.symm.trans h
    exact .inl rfl
  · cases hres.symm.trans h
    exact .inr ⟨hf, w, by simp [hq], inputWordWf_eq_false h0 h1, by simp [hf]⟩
  · obtain ⟨-, rfl⟩ | ⟨-, rfl⟩ | ⟨-, rfl⟩ := execEncData_next (hdata.symm.trans h)
    · exact .inl rfl
    · exact .inl rfl
    · exact .inl rfl
  · obtain ⟨-, rfl⟩ := execEncEnd_next (hend.symm.trans h)
    exact .inl rfl

/-- `DEC`'s turn adds no fault but its first, for a reserved head word or past a finite capacity (R203, R204). -/
theorem engineTurn_dec_faults {s t : State} (h : engineTurn .dec s = .next t) :
    t.decFaults = s.decFaults ∨ s.decFaults = [] ∧ ∃ f, t.decFaults = [f] ∧
      ((∃ w ∈ s.decIq, inputWordWf w = false) ∨ f.reason = .stageOverflow ∧ s.cfg.decStageCap ≠ none) := by
  obtain ⟨hwait, -⟩ | ⟨w, q, hf, hq, ⟨h0, h1, hres⟩ | ⟨-, hdata⟩ | ⟨-, hend⟩⟩ := engineTurn_dec_cases s
  · cases hwait.symm.trans h
    exact .inl rfl
  · cases hres.symm.trans h
    exact .inr ⟨hf, _, by rw [State.raiseFault_dec_decFaults, hf, addFault_nil],
      .inl ⟨w, by simp [hq], inputWordWf_eq_false h0 h1⟩⟩
  · obtain ⟨rfl, -⟩ | ⟨rfl, hfull⟩ := execDecData_next (hdata.symm.trans h)
    · exact .inl rfl
    · refine .inr ⟨hf, _, by rw [State.raiseFault_dec_decFaults, hf, addFault_nil], .inr ⟨rfl, fun hcap => ?_⟩⟩
      rw [State.stageFits_of_none hcap] at hfull
      cases hfull
  · cases (execDecEnd_eq s).symm.trans (hend.symm.trans h)
    exact .inl rfl

/-! ### What every turn keeps -/

/-- No turn writes the parameters (R35), and none but taking it off moves the schedule (log 3). -/
theorem takeTurn_cfg_schedule {u : Turn} {s t : State} (h : takeTurn u s = .next t) :
    t.cfg = s.cfg ∧ t.schedule = s.schedule := by
  obtain ⟨-, rfl⟩ | ⟨a, -, rfl⟩ | ⟨-, ⟨-, henc⟩ | ⟨-, hdec⟩ | ⟨w, -, rfl⟩ | ⟨w, -, rfl⟩ | ⟨-, w, q, -, rfl⟩ |
    ⟨-, w, q, -, rfl⟩⟩ := takeTurn_next h
  · exact ⟨rfl, rfl⟩
  · cases a <;> exact ⟨rfl, rfl⟩
  · rw [engineTurn_enc_frame henc]
    exact ⟨rfl, rfl⟩
  · rw [engineTurn_dec_frame hdec]
    exact ⟨rfl, rfl⟩
  all_goals exact ⟨rfl, rfl⟩

/-- Settles O43, by `takeTurn_cfg_schedule`. -/
theorem parametersNeverChange : Obligations.ParametersNeverChange := fun s _ h =>
  step_keeps (P := fun r => r.cfg = s.cfg) (fun _ _ hp => hp)
    (fun _ _ _ hp ht => (takeTurn_cfg_schedule ht).1.trans hp) rfl h

/-- What a turn does to the fault record: nothing, or it is an engine's turn (R203). -/
theorem takeTurn_faults {u : Turn} {s t : State} (h : takeTurn u s = .next t) :
    (t.encFaults = s.encFaults ∨ u = .enc ∧ engineTurn .enc s = .next t) ∧
    (t.decFaults = s.decFaults ∨ u = .dec ∧ engineTurn .dec s = .next t) := by
  obtain ⟨-, rfl⟩ | ⟨a, -, rfl⟩ | ⟨-, ⟨hu, henc⟩ | ⟨hu, hdec⟩ | ⟨w, -, rfl⟩ | ⟨w, -, rfl⟩ | ⟨-, w, q, -, rfl⟩ |
    ⟨-, w, q, -, rfl⟩⟩ := takeTurn_next h
  · exact ⟨.inl rfl, .inl rfl⟩
  · cases a <;> exact ⟨.inl rfl, .inl rfl⟩
  · refine ⟨.inr ⟨hu, henc⟩, .inl ?_⟩
    rw [engineTurn_enc_frame henc]
  · refine ⟨.inl ?_, .inr ⟨hu, hdec⟩⟩
    rw [engineTurn_dec_frame hdec]
  all_goals exact ⟨.inl rfl, .inl rfl⟩

/-- No turn removes a fault (R204): an engine's own turn keeps its faults, or had none. -/
theorem mem_faultsOf_takeTurn {u : Turn} {s t : State} (h : takeTurn u s = .next t) {e : Engine} {f : FaultEntry}
    (hf : f ∈ s.faultsOf e) : f ∈ t.faultsOf e := by
  obtain ⟨henc, hdec⟩ := takeTurn_faults h
  cases e with
  | enc =>
    have hmem : f ∈ s.encFaults := hf
    show f ∈ t.encFaults
    obtain heq | ⟨-, hturn⟩ := henc
    · rwa [heq]
    · obtain heq | ⟨hnil, -⟩ := engineTurn_enc_faults hturn
      · rwa [heq]
      · simp [hnil] at hmem
  | dec =>
    have hmem : f ∈ s.decFaults := hf
    show f ∈ t.decFaults
    obtain heq | ⟨-, hturn⟩ := hdec
    · rwa [heq]
    · obtain heq | ⟨hnil, -⟩ := engineTurn_dec_faults hturn
      · rwa [heq]
      · simp [hnil] at hmem

/-- `ENC`'s turn does the same whatever faults `DEC` has. -/
theorem takeTurn_enc_decFaults {s t : State} (h : takeTurn .enc s = .next t) (fs : List FaultEntry) :
    takeTurn .enc { s with decFaults := fs } = .next { t with decFaults := fs } := by
  obtain hr | hr := Bool.eq_false_or_eq_true s.resetIn
  · cases (takeTurn_of_reset hr (u := .enc) (by simp)).symm.trans h
    exact takeTurn_of_reset (s := { s with decFaults := fs }) hr (by simp)
  · have hturn : engineTurn .enc s = .next t := (takeTurn_own (e := .enc) hr).symm.trans h
    refine (takeTurn_own (e := .enc) (s := { s with decFaults := fs }) hr).trans ?_
    rw [enc_transplant (s := s) (s' := { s with decFaults := fs }) ⟨rfl, rfl, rfl, rfl⟩ hturn, engineTurn_enc_frame hturn]

/-- `DEC`'s turn does the same whatever faults `ENC` has. -/
theorem takeTurn_dec_encFaults {s t : State} (h : takeTurn .dec s = .next t) (fs : List FaultEntry) :
    takeTurn .dec { s with encFaults := fs } = .next { t with encFaults := fs } := by
  obtain hr | hr := Bool.eq_false_or_eq_true s.resetIn
  · cases (takeTurn_of_reset hr (u := .dec) (by simp)).symm.trans h
    exact takeTurn_of_reset (s := { s with encFaults := fs }) hr (by simp)
  · have hturn : engineTurn .dec s = .next t := (takeTurn_own (e := .dec) hr).symm.trans h
    refine (takeTurn_own (e := .dec) (s := { s with encFaults := fs }) hr).trans ?_
    rw [dec_transplant (s := s) (s' := { s with encFaults := fs }) ⟨rfl, rfl, rfl, rfl⟩ rfl hturn, engineTurn_dec_frame hturn]

/-- Settles O33: a faulted engine waits, every turn keeps a fault, and an engine's turn reads only its own share. -/
theorem faultedEngineTakesNoStep : Obligations.FaultedEngineTakesNoStep := by
  refine ⟨fun e s hr hf => takeTurn_own_of_waits hr (.inl hf), fun s t h e f hf => ?_,
    fun s t fs => ⟨fun h => takeTurn_enc_decFaults h fs, fun h => takeTurn_dec_encFaults h fs⟩⟩
  exact step_keeps (P := fun r => f ∈ r.faultsOf e) (fun _ _ hp => by cases e <;> exact hp)
    (fun _ _ _ hp ht => mem_faultsOf_takeTurn ht hp) hf h

/-! ### The words put out -/

theorem encWordOk_eom : encWordOk eom = true := by decide

theorem encWordOk_dataWord {c : Byte} (h : isOutputChar c = true) : encWordOk (dataWord c) = true := by
  simp [encWordOk, h]

theorem decWordOk_eom : decWordOk eom = true := by decide

theorem decWordOk_dataWord (c : Byte) : decWordOk (dataWord c) = true := by simp [decWordOk]

/-- What a turn does to the words an engine has put out, popped or not: reset drops those not popped, a pop keeps them
all, and the engine's own turn appends to its queue. -/
theorem takeTurn_outputs {u : Turn} {s t : State} (h : takeTurn u s = .next t) :
    ((t.encPopped ++ t.encOq = s.encPopped ∧ t.decPopped ++ t.decOq = s.decPopped) ∧
      (s.resetIn = true ∨ t.resetIn = true)) ∨
    ((t.encPopped ++ t.encOq = s.encPopped ++ s.encOq ∨ t.encPopped = s.encPopped ∧ engineTurn .enc s = .next t) ∧
     (t.decPopped ++ t.decOq = s.decPopped ++ s.decOq ∨ t.decPopped = s.decPopped ∧ engineTurn .dec s = .next t)) := by
  obtain ⟨hr, rfl⟩ | ⟨a, -, rfl⟩ | ⟨-, ⟨-, henc⟩ | ⟨-, hdec⟩ | ⟨w, -, rfl⟩ | ⟨w, -, rfl⟩ | ⟨-, w, q, hq, rfl⟩ |
    ⟨-, w, q, hq, rfl⟩⟩ := takeTurn_next h
  · exact .inl ⟨by simp, .inl hr⟩
  · cases a with
    | false => exact .inr ⟨.inl rfl, .inl rfl⟩
    | true => exact .inl ⟨by simp, .inr rfl⟩
  · refine .inr ⟨.inr ⟨?_, henc⟩, .inl ?_⟩ <;> rw [engineTurn_enc_frame henc]
  · refine .inr ⟨.inl ?_, .inr ⟨?_, hdec⟩⟩ <;> rw [engineTurn_dec_frame hdec]
  · exact .inr ⟨.inl rfl, .inl rfl⟩
  · exact .inr ⟨.inl rfl, .inl rfl⟩
  · exact .inr ⟨.inl (by simp [hq]), .inl rfl⟩
  · exact .inr ⟨.inl rfl, .inl (by simp [hq])⟩

theorem engineTurn_enc_outputsOk {s t : State} (h : engineTurn .enc s = .next t)
    (hok : ∀ w ∈ s.encOq, encWordOk w = true) : ∀ w ∈ t.encOq, encWordOk w = true := by
  intro w hw
  obtain hold | rfl | ⟨c, hc, rfl⟩ := (engineTurn_enc_queueStep h).mem_output hw
  · exact hok w hold
  · exact encWordOk_eom
  · exact encWordOk_dataWord hc

theorem engineTurn_dec_outputsOk {s t : State} (h : engineTurn .dec s = .next t)
    (hok : ∀ w ∈ s.decOq, decWordOk w = true) : ∀ w ∈ t.decOq, decWordOk w = true := by
  intro w hw
  obtain hold | rfl | ⟨c, -, rfl⟩ := (engineTurn_dec_queueStep h).mem_output hw
  · exact hok w hold
  · exact decWordOk_eom
  · exact decWordOk_dataWord c

theorem takeTurn_outputsOk {u : Turn} {s t : State} (hok : s.OutputsOk) (h : takeTurn u s = .next t) :
    t.OutputsOk := by
  obtain ⟨henc, hdec⟩ := hok
  obtain ⟨⟨he, hd⟩, -⟩ | ⟨he, hd⟩ := takeTurn_outputs h
  · rw [State.OutputsOk, he, hd]
    exact ⟨(List.forall_mem_append.1 henc).1, (List.forall_mem_append.1 hdec).1⟩
  · refine ⟨?_, ?_⟩
    · obtain heq | ⟨hpop, hturn⟩ := he
      · rwa [heq]
      · obtain ⟨hp, hq⟩ := List.forall_mem_append.1 henc
        rw [hpop]
        exact List.forall_mem_append.2 ⟨hp, engineTurn_enc_outputsOk hturn hq⟩
    · obtain heq | ⟨hpop, hturn⟩ := hd
      · rwa [heq]
      · obtain ⟨hp, hq⟩ := List.forall_mem_append.1 hdec
        rw [hpop]
        exact List.forall_mem_append.2 ⟨hp, engineTurn_dec_outputsOk hturn hq⟩

/-- Settles O42: every turn keeps the words put out, drops some, or appends legal ones. -/
theorem outputWordsStayLegal : Obligations.OutputWordsStayLegal := fun _ _ hok h =>
  step_keeps (P := fun r => r.OutputsOk) (fun _ _ hp => hp) (fun _ _ _ => takeTurn_outputsOk) hok h

/-- Settles O45: an engine's turn is a `QueueStep`, which keeps the count. -/
theorem eachEndGivesOneEom : Obligations.EachEndGivesOneEom := fun _ _ hr =>
  ⟨fun h => (engineTurn_enc_queueStep ((takeTurn_own (e := .enc) hr).symm.trans h)).messageEnds_eq,
    fun h => (engineTurn_dec_queueStep ((takeTurn_own (e := .dec) hr).symm.trans h)).messageEnds_eq⟩

/-! ### The words queued -/

/-- What a turn does to an input queue: reset empties it, a push appends a word, the engine's own turn is a `QueueStep`,
and any other turn keeps it. -/
theorem takeTurn_inputs {u : Turn} {s t : State} (h : takeTurn u s = .next t) :
    (t.encIq = [] ∧ t.decIq = [] ∧ (s.resetIn = true ∨ t.resetIn = true)) ∨
    ((t.encIq = s.encIq ∨ (∃ w, u = .pushEnc w ∧ t.encIq = s.encIq ++ [w]) ∨ engineTurn .enc s = .next t) ∧
     (t.decIq = s.decIq ∨ (∃ w, u = .pushDec w ∧ t.decIq = s.decIq ++ [w]) ∨ engineTurn .dec s = .next t)) := by
  obtain ⟨hr, rfl⟩ | ⟨a, -, rfl⟩ | ⟨-, ⟨-, henc⟩ | ⟨-, hdec⟩ | ⟨w, hu, rfl⟩ | ⟨w, hu, rfl⟩ | ⟨-, w, q, -, rfl⟩ |
    ⟨-, w, q, -, rfl⟩⟩ := takeTurn_next h
  · exact .inl ⟨rfl, rfl, .inl hr⟩
  · cases a with
    | false => exact .inr ⟨.inl rfl, .inl rfl⟩
    | true => exact .inl ⟨rfl, rfl, .inr rfl⟩
  · refine .inr ⟨.inr (.inr henc), .inl ?_⟩
    rw [engineTurn_enc_frame henc]
  · refine .inr ⟨.inl ?_, .inr (.inr hdec)⟩
    rw [engineTurn_dec_frame hdec]
  · exact .inr ⟨.inr (.inl ⟨w, hu, rfl⟩), .inl rfl⟩
  · exact .inr ⟨.inl rfl, .inr (.inl ⟨w, hu, rfl⟩)⟩
  · exact .inr ⟨.inl rfl, .inl rfl⟩
  · exact .inr ⟨.inl rfl, .inl rfl⟩

/-- Outside reset the words put out only grow at the end (R55, R57). -/
theorem takeTurn_outputs_grow {u : Turn} {s t : State} (h : takeTurn u s = .next t) (hs : s.resetIn = false)
    (ht : t.resetIn = false) :
    (s.encPopped ++ s.encOq) <+: (t.encPopped ++ t.encOq) ∧ (s.decPopped ++ s.decOq) <+: (t.decPopped ++ t.decOq) := by
  obtain ⟨-, hr⟩ | ⟨he, hd⟩ := takeTurn_outputs h
  · simp [hs, ht] at hr
  · constructor
    · obtain heq | ⟨hpop, hturn⟩ := he
      · rw [heq]
      · rw [hpop]
        exact (List.prefix_append_right_inj _).2 (engineTurn_enc_queueStep hturn).output
    · obtain heq | ⟨hpop, hturn⟩ := hd
      · rw [heq]
      · rw [hpop]
        exact (List.prefix_append_right_inj _).2 (engineTurn_dec_queueStep hturn).output

/-- Outside reset an input queue is kept, loses its head or gains a word at its end (R55, R57). -/
theorem takeTurn_inputs_keep_order {u : Turn} {s t : State} (h : takeTurn u s = .next t) (hs : s.resetIn = false)
    (ht : t.resetIn = false) :
    (t.encIq = s.encIq ∨ t.encIq = s.encIq.tail ∨ ∃ w, t.encIq = s.encIq ++ [w]) ∧
    (t.decIq = s.decIq ∨ t.decIq = s.decIq.tail ∨ ∃ w, t.decIq = s.decIq ++ [w]) := by
  obtain ⟨-, -, hr⟩ | ⟨he, hd⟩ := takeTurn_inputs h
  · simp [hs, ht] at hr
  · constructor
    · obtain heq | ⟨w, -, hw⟩ | hturn := he
      · exact .inl heq
      · exact .inr (.inr ⟨w, hw⟩)
      · exact (engineTurn_enc_queueStep hturn).input.imp_right .inl
    · obtain heq | ⟨w, -, hw⟩ | hturn := hd
      · exact .inl heq
      · exact .inr (.inr ⟨w, hw⟩)
      · exact (engineTurn_dec_queueStep hturn).input.imp_right .inl

/-- Settles O46: a step is the head turn, and a turn outside reset keeps the queues' order. -/
theorem queuesKeepTheirOrder : Obligations.QueuesKeepTheirOrder := by
  intro s t h hs ht
  obtain ⟨-, rfl⟩ | ⟨u, rest, -, hturn⟩ := step_next h
  · exact ⟨List.prefix_rfl, List.prefix_rfl, .inl rfl, .inl rfl⟩
  · obtain ⟨henc, hdec⟩ := takeTurn_outputs_grow hturn hs ht
    have hin := takeTurn_inputs_keep_order hturn hs ht
    exact ⟨henc, hdec, hin⟩

/-! ### A dutiful host -/

/-- A dutiful turn queues no reserved word where none was queued (R236). -/
theorem takeTurn_inputs_wf {u : Turn} {s t : State} (h : takeTurn u s = .next t) (hu : u.dutiful = true)
    (henc : ∀ w ∈ s.encIq, inputWordWf w = true) (hdec : ∀ w ∈ s.decIq, inputWordWf w = true) :
    (∀ w ∈ t.encIq, inputWordWf w = true) ∧ (∀ w ∈ t.decIq, inputWordWf w = true) := by
  obtain ⟨he, hd, -⟩ | ⟨he, hd⟩ := takeTurn_inputs h
  · simp [he, hd]
  · constructor
    · obtain heq | ⟨w, rfl, hw⟩ | hturn := he
      · rwa [heq]
      · rw [hw]
        exact List.forall_mem_append.2 ⟨henc, by simpa [Turn.dutiful] using hu⟩
      · exact fun w hw => henc w ((engineTurn_enc_queueStep hturn).mem_input hw)
    · obtain heq | ⟨w, rfl, hw⟩ | hturn := hd
      · rwa [heq]
      · rw [hw]
        exact List.forall_mem_append.2 ⟨hdec, by simpa [Turn.dutiful] using hu⟩
      · exact fun w hw => hdec w ((engineTurn_dec_queueStep hturn).mem_input hw)

/-- With no reserved word queued `ENC` raises no fault (R203). -/
theorem takeTurn_encFaults_of_wf {u : Turn} {s t : State} (h : takeTurn u s = .next t)
    (hwf : ∀ w ∈ s.encIq, inputWordWf w = true) : t.encFaults = s.encFaults := by
  obtain heq | ⟨-, hturn⟩ := (takeTurn_faults h).1
  · exact heq
  · obtain heq | ⟨-, w, hw, hbad, -⟩ := engineTurn_enc_faults hturn
    · exact heq
    · cases hbad.symm.trans (hwf w hw)

/-- With no reserved word queued `DEC` raises no fault but `STAGE_OVERFLOW`, past a finite capacity (R203). -/
theorem takeTurn_decFaults_of_wf {u : Turn} {s t : State} (h : takeTurn u s = .next t)
    (hwf : ∀ w ∈ s.decIq, inputWordWf w = true) :
    t.decFaults = s.decFaults ∨ s.cfg.decStageCap ≠ none ∧ ∃ f, t.decFaults = [f] ∧ f.reason = .stageOverflow := by
  obtain heq | ⟨-, hturn⟩ := (takeTurn_faults h).2
  · exact .inl heq
  · obtain heq | ⟨-, f, hf, ⟨w, hw, hbad⟩ | ⟨hover, hcap⟩⟩ := engineTurn_dec_faults hturn
    · exact .inl heq
    · cases hbad.symm.trans (hwf w hw)
    · exact .inr ⟨hcap, f, hf, hover⟩

/-- Settles O47: the head turn is dutiful, so no reserved word is queued after it and none was there to raise a fault. -/
theorem dutifulHostMeetsNoReservedWord : Obligations.DutifulHostMeetsNoReservedWord := by
  rintro s t ⟨henc, hdec, hsched⟩ h
  obtain ⟨-, rfl⟩ | ⟨u, rest, hs, hturn⟩ := step_next h
  · exact ⟨⟨henc, hdec, hsched⟩, rfl, fun f hf => .inl hf, fun _ => rfl⟩
  · rw [hs] at hsched
    obtain ⟨hu, hrest⟩ := List.forall_mem_cons.1 hsched
    obtain ⟨henc', hdec'⟩ := takeTurn_inputs_wf hturn hu henc hdec
    have hef := takeTurn_encFaults_of_wf hturn henc
    refine ⟨⟨henc', hdec', ?_⟩, hef, ?_, ?_⟩
    · rw [(takeTurn_cfg_schedule hturn).2]
      exact hrest
    · intro f hf
      obtain heq | ⟨-, g, hg, hover⟩ := takeTurn_decFaults_of_wf hturn hdec
      · exact .inl (heq ▸ hf)
      · rw [hg, List.mem_singleton] at hf
        exact .inr (hf ▸ hover)
    · intro hcap
      exact (takeTurn_decFaults_of_wf hturn hdec).resolve_right fun hover => hover.1 hcap

end Sys2Proof.Machine
end

section
/-! SUPPORT. The proofs of O40, O39 and O41: R39 at reset and through every turn, and the turns that answer. -/

namespace Sys2Proof.Machine

/-! ### The invariant of R39 -/

theorem EncState.idle_inv : EncState.idle.Inv := by decide

theorem DecState.idle_inv : DecState.idle.Inv := by decide

/-- An empty staging buffer is within every capacity (R30). -/
theorem stageFits_zero_of_empty {s : State} (h : s.dec.stage = []) : s.stageFits 0 = true := by
  cases hc : s.cfg.decStageCap <;> simp [State.stageFits, hc, h]

/-- `ENC`'s turn keeps R39 on the encoder's fields: it counts to 2 at most, and fills a slot of `ENC_HOLD` before it is
read. -/
theorem engineTurn_enc_inv {s t : State} (hi : s.enc.Inv) (h : engineTurn .enc s = .next t) : t.enc.Inv := by
  obtain ⟨hwait, -⟩ | ⟨w, q, -, -, ⟨-, -, hres⟩ | ⟨-, hdata⟩ | ⟨-, hend⟩⟩ := engineTurn_enc_cases s
  · cases hwait.symm.trans h
    exact hi
  · cases hres.symm.trans h
    exact hi
  · obtain ⟨-, rfl⟩ | ⟨-, rfl⟩ | ⟨-, rfl⟩ := execEncData_next (hdata.symm.trans h)
    · simp [EncState.Inv]
    · simp [EncState.Inv]
    · exact EncState.idle_inv
  · obtain ⟨-, rfl⟩ := execEncEnd_next (hend.symm.trans h)
    exact EncState.idle_inv

/-- `DEC`'s turn keeps R39 on the decoder's fields, and the staging buffer within its capacity. -/
theorem engineTurn_dec_inv {s t : State} (hi : s.dec.Inv) (hfit : s.stageFits 0 = true)
    (h : engineTurn .dec s = .next t) : t.dec.Inv ∧ t.stageFits 0 = true := by
  obtain ⟨hwait, -⟩ | ⟨w, q, -, -, ⟨-, -, hres⟩ | ⟨-, hdata⟩ | ⟨-, hend⟩⟩ := engineTurn_dec_cases s
  · cases hwait.symm.trans h
    exact ⟨hi, hfit⟩
  · cases hres.symm.trans h
    exact ⟨hi, hfit⟩
  · obtain ⟨rfl, hroom⟩ | ⟨rfl, -⟩ := execDecData_next (hdata.symm.trans h)
    · exact ⟨decNext_inv _ _ hi, stageFits_decNext _ s hfit hroom⟩
    · exact ⟨hi, hfit⟩
  · cases (execDecEnd_eq s).symm.trans (hend.symm.trans h)
    exact ⟨DecState.idle_inv, stageFits_zero_of_empty rfl⟩

/-- An engine has one fault at most: it takes no turn once it has one (R204). -/
theorem takeTurn_faults_le_one {u : Turn} {s t : State} (h : takeTurn u s = .next t) (henc : s.encFaults.length ≤ 1)
    (hdec : s.decFaults.length ≤ 1) : t.encFaults.length ≤ 1 ∧ t.decFaults.length ≤ 1 := by
  obtain ⟨he, hd⟩ := takeTurn_faults h
  constructor
  · obtain heq | ⟨-, hturn⟩ := he
    · rwa [heq]
    · obtain heq | ⟨-, w, -, -, hone⟩ := engineTurn_enc_faults hturn
      · rwa [heq]
      · rw [hone]; rfl
  · obtain heq | ⟨-, hturn⟩ := hd
    · rwa [heq]
    · obtain heq | ⟨-, f, hone, -⟩ := engineTurn_dec_faults hturn
      · rwa [heq]
      · rw [hone]; rfl

/-- What a turn does to the engines' fields: reset makes both idle, an engine's own turn writes its own, and any other
turn keeps them. -/
theorem takeTurn_fields {u : Turn} {s t : State} (h : takeTurn u s = .next t) :
    (t.enc = EncState.idle ∧ t.dec = DecState.idle) ∨
    ((t.enc = s.enc ∨ engineTurn .enc s = .next t) ∧ (t.dec = s.dec ∨ engineTurn .dec s = .next t)) := by
  obtain ⟨-, rfl⟩ | ⟨a, -, rfl⟩ | ⟨-, ⟨-, henc⟩ | ⟨-, hdec⟩ | ⟨w, -, rfl⟩ | ⟨w, -, rfl⟩ | ⟨-, w, q, -, rfl⟩ |
    ⟨-, w, q, -, rfl⟩⟩ := takeTurn_next h
  · exact .inl ⟨rfl, rfl⟩
  · cases a with
    | false => exact .inr ⟨.inl rfl, .inl rfl⟩
    | true => exact .inl ⟨rfl, rfl⟩
  · refine .inr ⟨.inr henc, .inl ?_⟩
    rw [engineTurn_enc_frame henc]
  · refine .inr ⟨.inl ?_, .inr hdec⟩
    rw [engineTurn_dec_frame hdec]
  all_goals exact .inr ⟨.inl rfl, .inl rfl⟩

/-- The bound on the staging buffer reads the capacity and the decoder's fields only. -/
theorem stageFits_congr {s t : State} (hcfg : t.cfg = s.cfg) (hdec : t.dec = s.dec) (k : Nat) :
    t.stageFits k = s.stageFits k := by
  simp only [State.stageFits, hcfg, hdec]

/-- Every turn keeps the invariant of the block: R39 engine by engine, the bound of R30 and the faults. -/
theorem takeTurn_inv {u : Turn} {s t : State} (hi : s.Inv) (h : takeTurn u s = .next t) : t.Inv := by
  obtain ⟨henc, hdec, hfit, hef, hdf⟩ := hi
  have hfaults := takeTurn_faults_le_one h hef hdf
  obtain ⟨he, hd⟩ | ⟨he, hd⟩ := takeTurn_fields h
  · exact ⟨he ▸ EncState.idle_inv, hd ▸ DecState.idle_inv, stageFits_zero_of_empty (by rw [hd]; rfl), hfaults⟩
  · have henc' : t.enc.Inv := by
      obtain heq | hturn := he
      · rwa [heq]
      · exact engineTurn_enc_inv henc hturn
    have hdec' : t.dec.Inv ∧ t.stageFits 0 = true := by
      obtain heq | hturn := hd
      · rw [stageFits_congr (takeTurn_cfg_schedule h).1 heq, heq]
        exact ⟨hdec, hfit⟩
      · exact engineTurn_dec_inv hdec hfit hturn
    exact ⟨henc', hdec'.1, hdec'.2, hfaults⟩

/-- Settles O40: every turn keeps the invariant, which does not speak of the schedule. -/
theorem invariantKeptByEveryStep : Obligations.InvariantKeptByEveryStep := fun _ _ hi h =>
  step_keeps (P := fun r => r.Inv) (fun _ _ hp => hp) (fun _ _ _ => takeTurn_inv) hi h

/-- Settles O39: both engines are idle, and there is no fault. -/
theorem invariantHoldsAtReset : Obligations.InvariantHoldsAtReset := fun _ =>
  ⟨EncState.idle_inv, DecState.idle_inv, stageFits_zero_of_empty rfl, Nat.zero_le _, Nat.zero_le _⟩

/-! ### The turns that answer -/

/-- Every turn answers a next state where `ENC_CNT` is at most 2, but a pop of an empty queue (R55, R200). -/
theorem takeTurn_answers (u : Turn) {s : State} (hc : s.enc.cnt ≠ 3) :
    (∃ t, takeTurn u s = .next t) ∨
    (takeTurn u s = .refused (.popEmpty .enc) ∧ s.encOq = [] ∧ u = .popEnc) ∨
    (takeTurn u s = .refused (.popEmpty .dec) ∧ s.decOq = [] ∧ u = .popDec) := by
  obtain hr | hr := Bool.eq_false_or_eq_true s.resetIn
  · cases u with
    | reset a => exact .inl ⟨_, rfl⟩
    | _ => exact .inl ⟨_, takeTurn_of_reset hr (by simp)⟩
  · obtain ⟨hpushEnc, hpushDec, hpopEnc, hpopDec, hemptyEnc, hemptyDec⟩ := hostSteps s hr
    cases u with
    | reset a => exact .inl ⟨_, rfl⟩
    | enc =>
      obtain ⟨t, ht⟩ := engineTurn_enc_complete hc
      exact .inl ⟨t, (takeTurn_own (e := .enc) hr).trans ht⟩
    | dec =>
      obtain ⟨t, ht⟩ := engineTurn_dec_complete s
      exact .inl ⟨t, (takeTurn_own (e := .dec) hr).trans ht⟩
    | pushEnc w => exact .inl ⟨_, hpushEnc w⟩
    | pushDec w => exact .inl ⟨_, hpushDec w⟩
    | popEnc =>
      cases hq : s.encOq with
      | nil => exact .inr (.inl ⟨hemptyEnc hq, rfl, rfl⟩)
      | cons w q => exact .inl ⟨_, hpopEnc w q hq⟩
    | popDec =>
      cases hq : s.decOq with
      | nil => exact .inr (.inr ⟨hemptyDec hq, rfl, rfl⟩)
      | cons w q => exact .inl ⟨_, hpopDec w q hq⟩

/-- Settles O41: a step is the head turn, and R39 keeps `ENC_CNT` at most 2. -/
theorem stepStopsOnlyOnEmptyPop : Obligations.StepStopsOnlyOnEmptyPop := by
  rintro s ⟨⟨hc, -⟩, -⟩
  cases hs : s.schedule with
  | nil => exact .inl ⟨s, by simp [step, hs]⟩
  | cons u rest =>
    rw [step_of_schedule hs]
    obtain hnext | ⟨hpop, hq, rfl⟩ | ⟨hpop, hq, rfl⟩ := takeTurn_answers u (s := { s with schedule := rest }) hc
    · exact .inl hnext
    · exact .inr (.inl ⟨hpop, hq, rfl⟩)
    · exact .inr (.inr ⟨hpop, hq, rfl⟩)

end Sys2Proof.Machine
end

section
/-! SUPPORT. The proofs of O49, O48, O50 and O51: an engine's turn reads and writes its own share, so the engines' turns
commute, and steps take the turns of the schedule. -/

namespace Sys2Proof.Machine

/-! ### An engine's share -/

/-- `ENC`'s turn is a function of the encoder's share and the reset input (R20, R138). -/
theorem takeTurn_enc_of_sameEncoder {s s' t : State} (hr : s.resetIn = s'.resetIn) (hs : s.SameEncoder s')
    (h : takeTurn .enc s = .next t) : ∃ t', takeTurn .enc s' = .next t' ∧ t.SameEncoder t' := by
  obtain hreset | hreset := Bool.eq_false_or_eq_true s.resetIn
  · cases (takeTurn_of_reset hreset (u := .enc) (by simp)).symm.trans h
    obtain ⟨-, -, -, hf⟩ := hs
    exact ⟨_, takeTurn_of_reset (hr.symm.trans hreset) (by simp), rfl, rfl, rfl, hf⟩
  · have hturn : engineTurn .enc s = .next t := (takeTurn_own (e := .enc) hreset).symm.trans h
    exact ⟨_, (takeTurn_own (e := .enc) (hr.symm.trans hreset)).trans (enc_transplant hs hturn), rfl, rfl, rfl, rfl⟩

/-- `DEC`'s turn is a function of the decoder's share, the capacity and the reset input (R20, R177). -/
theorem takeTurn_dec_of_sameDecoder {s s' t : State} (hr : s.resetIn = s'.resetIn) (hs : s.SameDecoder s')
    (hcfg : s.cfg = s'.cfg) (h : takeTurn .dec s = .next t) :
    ∃ t', takeTurn .dec s' = .next t' ∧ t.SameDecoder t' := by
  obtain hreset | hreset := Bool.eq_false_or_eq_true s.resetIn
  · cases (takeTurn_of_reset hreset (u := .dec) (by simp)).symm.trans h
    obtain ⟨-, -, -, hf⟩ := hs
    exact ⟨_, takeTurn_of_reset (hr.symm.trans hreset) (by simp), rfl, rfl, rfl, hf⟩
  · have hturn : engineTurn .dec s = .next t := (takeTurn_own (e := .dec) hreset).symm.trans h
    exact ⟨_, (takeTurn_own (e := .dec) (hr.symm.trans hreset)).trans (dec_transplant hs hcfg hturn), rfl, rfl, rfl,
      rfl⟩

/-- Settles O50: each engine's turn as a function of its share. -/
theorem engineStepsReadOnlyTheirShare : Obligations.EngineStepsReadOnlyTheirShare := fun _ _ _ hr =>
  ⟨takeTurn_enc_of_sameEncoder hr, takeTurn_dec_of_sameDecoder hr⟩

/-! ### The engines' turns commute -/

/-- With reset released, `DEC`'s turn does the same before an `ENC` turn as after it, and the `ENC` turn too. -/
theorem engineTurn_commute {s t u : State} (henc : engineTurn .enc s = .next t) (hdec : engineTurn .dec t = .next u) :
    ∃ t', engineTurn .dec s = .next t' ∧ engineTurn .enc t' = .next u := by
  have ht := engineTurn_enc_frame henc
  have hsame : t.SameDecoder s := by rw [ht]; exact ⟨rfl, rfl, rfl, rfl⟩
  have hcfg : t.cfg = s.cfg := by rw [ht]
  have hfirst := dec_transplant hsame hcfg hdec
  have hthen := enc_transplant (s := s)
    (s' := { s with dec := u.dec, decIq := u.decIq, decOq := u.decOq, decFaults := u.decFaults })
    ⟨rfl, rfl, rfl, rfl⟩ henc
  refine ⟨_, hfirst, hthen.trans ?_⟩
  rw [engineTurn_dec_frame hdec, ht]

/-- Settles O48: while reset is asserted both turns are the reset act, else the engines' turns commute. -/
theorem engineStepsCommute : Obligations.EngineStepsCommute := by
  intro s t u henc hdec
  obtain hr | hr := Bool.eq_false_or_eq_true s.resetIn
  · cases (takeTurn_of_reset hr (u := .enc) (by simp)).symm.trans henc
    cases (takeTurn_of_reset (s := s.resetAct) hr (u := .dec) (by simp)).symm.trans hdec
    exact ⟨_, takeTurn_of_reset hr (by simp), takeTurn_of_reset (s := s.resetAct) hr (by simp)⟩
  · have henc' : engineTurn .enc s = .next t := (takeTurn_own (e := .enc) hr).symm.trans henc
    have hrt : t.resetIn = false := by rw [engineTurn_enc_frame henc']; exact hr
    obtain ⟨t', hd, he⟩ := engineTurn_commute henc' ((takeTurn_own (e := .dec) hrt).symm.trans hdec)
    have hrt' : t'.resetIn = false := by rw [engineTurn_dec_frame hd]; exact hr
    exact ⟨t', (takeTurn_own (e := .dec) hr).trans hd, (takeTurn_own (e := .enc) hrt').trans he⟩

/-- `DEC`'s turn answers a next state in every state (R202). -/
theorem takeTurn_dec_complete (s : State) : ∃ t, takeTurn .dec s = .next t := by
  obtain hr | hr := Bool.eq_false_or_eq_true s.resetIn
  · exact ⟨_, takeTurn_of_reset hr (by simp)⟩
  · obtain ⟨t, ht⟩ := engineTurn_dec_complete s
    exact ⟨t, (takeTurn_own (e := .dec) hr).trans ht⟩

/-- `DEC`'s turn leaves the encoder's share as it was, or both turns are the reset act. -/
theorem takeTurn_enc_of_dec_then_enc {s t u : State} (hdec : takeTurn .dec s = .next t)
    (henc : takeTurn .enc t = .next u) : ∃ t', takeTurn .enc s = .next t' := by
  obtain hr | hr := Bool.eq_false_or_eq_true s.resetIn
  · exact ⟨_, takeTurn_of_reset hr (by simp)⟩
  · have ht := engineTurn_dec_frame ((takeTurn_own (e := .dec) hr).symm.trans hdec)
    have hreset : t.resetIn = s.resetIn := by rw [ht]
    have hsame : t.SameEncoder s := by rw [ht]; exact ⟨rfl, rfl, rfl, rfl⟩
    obtain ⟨t', ht', -⟩ := takeTurn_enc_of_sameEncoder hreset hsame henc
    exact ⟨t', ht'⟩

/-- The other direction of O48: the `ENC` turn may go first, for `DEC`'s answers in every state. -/
theorem dec_enc_commute {s t u : State} (hdec : takeTurn .dec s = .next t) (henc : takeTurn .enc t = .next u) :
    ∃ t', takeTurn .enc s = .next t' ∧ takeTurn .dec t' = .next u := by
  obtain ⟨t', ht'⟩ := takeTurn_enc_of_dec_then_enc hdec henc
  obtain ⟨u', hu'⟩ := takeTurn_dec_complete t'
  obtain ⟨r, hr, hru⟩ := engineStepsCommute s t' u' ht' hu'
  cases hdec.symm.trans hr
  cases henc.symm.trans hru
  exact ⟨t', ht', hu'⟩

/-! ### Runs of turns -/

/-- A run of two lists of turns answers through the state between them. -/
theorem runTurns_append_next {us vs : List Turn} {s t : State} (h : runTurns (us ++ vs) s = .next t) :
    ∃ m, runTurns us s = .next m ∧ runTurns vs m = .next t := by
  induction us generalizing s with
  | nil => exact ⟨s, rfl, h⟩
  | cons u us ih =>
    obtain ⟨r, hr, hrest⟩ := runTurns_cons_next h
    obtain ⟨m, hm, hv⟩ := ih hrest
    exact ⟨m, (runTurns_cons_of_next hr us).trans hm, hv⟩

/-- A `DEC` turn before a run of `ENC` turns may be taken after it. -/
theorem dec_after_encs {es : List Turn} (hes : ∀ t ∈ es, t = .enc) {s m u : State} (hdec : takeTurn .dec s = .next m)
    (h : runTurns es m = .next u) : ∃ r, runTurns es s = .next r ∧ takeTurn .dec r = .next u := by
  induction es generalizing s m with
  | nil => cases h; exact ⟨s, rfl, hdec⟩
  | cons e es ih =>
    obtain ⟨rfl, hrest⟩ := List.forall_mem_cons.1 hes
    obtain ⟨n, hn, hrun⟩ := runTurns_cons_next h
    obtain ⟨t', ht', hdec'⟩ := dec_enc_commute hdec hn
    obtain ⟨r, hr, hru⟩ := ih hrest hdec' hrun
    exact ⟨r, (runTurns_cons_of_next ht' es).trans hr, hru⟩

/-- Settles O49, by induction on the run: an `ENC` turn is first already, and a `DEC` turn moves behind the `ENC` turns of
the rest. -/
theorem interleavingIsImmaterial : Obligations.InterleavingIsImmaterial := by
  intro ts
  induction ts with
  | nil => intro s u _ h; exact h
  | cons t ts ih =>
    intro s u hts h
    obtain ⟨ht, hts⟩ := List.forall_mem_cons.1 hts
    obtain ⟨m, hm, hrest⟩ := runTurns_cons_next h
    have hsorted := ih m u hts hrest
    obtain rfl | rfl := ht
    · exact (runTurns_cons_of_next hm _).trans hsorted
    · obtain ⟨n, hencs, hdecs⟩ := runTurns_append_next hsorted
      obtain ⟨r, hr, hn⟩ := dec_after_encs (by simp) hm hencs
      exact (runTurns_append hr).trans ((runTurns_cons_of_next hn _).trans hdecs)

/-- Settles O51, by induction on the turns: a step takes the head turn off, and a turn does not read the schedule. -/
theorem stepsFollowTheSchedule : Obligations.StepsFollowTheSchedule := by
  intro ts rest
  induction ts with
  | nil => intro s; rfl
  | cons u ts ih =>
    intro s
    have hstep : step { s with schedule := u :: ts ++ rest } = takeTurn u { s with schedule := ts ++ rest } := rfl
    rw [List.length_cons, runSteps, runTurns, hstep, takeTurn_schedule u s (ts ++ rest),
      takeTurn_schedule u s rest]
    cases takeTurn u s with
    | next t => exact ih t
    | fault r => rfl
    | refused r => rfl

end Sys2Proof.Machine
end

section
/-! SUPPORT. The proofs of O52, O53, O54, O55 and O56: one message as a run of instructions. -/

namespace Sys2Proof.Machine

/-- From the idle state an encoder message puts out `ENCODE` of its bytes and `EOM` and leaves the encoder idle: its
complete groups are out before `ENC.END`, which emits the tail (R139, R140). -/
theorem runInstrs_encMessage {s : State} (b : List Byte) (h : s.enc = EncState.idle) :
    runInstrs (encMessage b) s = .next { s with
      encIq := s.encIq.drop (b.length + 1)
      encOq := s.encOq ++ resultWords (encodeRef b) } := by
  obtain ⟨e, hrun, -, htail, hcnt⟩ := runInstrs_encData b s h
  rw [encMessage, runInstrs_append hrun, runInstrs_cons_of_next (exec_encEnd_of_endTail hcnt htail), runInstrs_nil, ← h]
  simp only [State.takeEnc, State.emitEnc, State.setEnc, resultWords, List.tail_drop]
  rw [List.append_assoc, ← List.append_assoc (List.map dataWord _), ← List.map_append, List.take_append_drop]

/-- Settles O52, by `runInstrs_encMessage`. -/
theorem encoderAgreesWithReference : Obligations.EncoderAgreesWithReference := by
  intro b s h
  rw [runInstrs_encMessage b h, resultWords, ← List.append_assoc]
  rfl

/-- Settles O53: what the bytes of a message leave out and held. -/
theorem encoderEmitsEachGroupAtOnce : Obligations.EncoderEmitsEachGroupAtOnce := by
  intro b s h
  obtain ⟨e, hrun, hcnt, -, -⟩ := runInstrs_encData b s h
  exact ⟨_, hrun, rfl, hcnt⟩

/-- Settles O54: without a fault every character was taken into the decoder's fields, and `DEC.END` emits `DECODE`. -/
theorem decoderAgreesWithReference : Obligations.DecoderAgreesWithReference := by
  intro t s u v hd _ hrun hu hend
  obtain rfl := (runInstrs_decData_of_noFault t s u hrun).2 hu
  cases (execDecEnd_eq _).symm.trans hend
  refine ⟨rfl, ?_⟩
  rw [hd, endWords_fold, List.append_assoc, ← hd]
  simp only [State.decFinish, State.takeDec, State.emitDec, State.setDec, List.tail_drop, hd]
  rfl

/-- Settles O55: within the capacity the message is taken whole and the fault record is not written. -/
theorem messageWithinCapacityNeverOverflows : Obligations.MessageWithinCapacityNeverOverflows :=
  fun _ _ hd hfits => ⟨_, runInstrs_decMessage hd hfits, rfl, rfl⟩

/-- Settles O56: within the capacity the fields are those of `decFold`, whose position and staged bytes are counted. -/
theorem stageCountsGroups : Obligations.StageCountsGroups := by
  intro t s u hd hfits hrun herr
  cases (runInstrs_decData (State.roomFor_of_messageFits hd hfits)).symm.trans hrun
  have hcount := decFold_count t []
  simp only [DecState.openAt, List.length_nil, Nat.zero_add] at hcount
  rw [hd] at herr ⊢
  exact hcount herr

end Sys2Proof.Machine
end

section
/-! SUPPORT. The proofs of O58 and O59: a message pushed by the host and answered by its engine, and the round trip. -/

namespace Sys2Proof.Machine

/-! ### A message pushed and answered -/

/-- The words of a message are those of its instructions (R77, R83). -/
theorem map_encode_encMessage (b : List Byte) : (encMessage b).map encode = messageWords b := by
  simp [encMessage, messageWords, encode]

/-- A message has one word more than bytes, its `END` (R77). -/
theorem drop_messageWords (xs : List Byte) : (messageWords xs).drop (xs.length + 1) = [] :=
  List.drop_eq_nil_of_le (by simp [messageWords])

theorem engine_of_mem_encMessage {b : List Byte} {i : Instr} (h : i ∈ encMessage b) : i.engine = .enc := by
  simp only [encMessage, List.mem_append, List.mem_map, List.mem_singleton] at h
  obtain ⟨x, -, rfl⟩ | rfl := h
  · rfl
  · rfl

/-- The pushes of an encoder message and `n + 1` turns of `ENC` put the result out and leave the engine idle with an
empty queue (R239). -/
theorem runTurns_encMessageTurns {s : State} (b : List Byte) (hr : s.resetIn = false) (he : s.enc = EncState.idle)
    (hq : s.encIq = []) (hf : s.encFaults = []) :
    runTurns (encMessageTurns b) s = .next { s with encOq := s.encOq ++ resultWords (encodeRef b) } := by
  have hpush := runTurns_pushEnc (messageWords b) s hr
  rw [hq, List.nil_append] at hpush
  have hlen : (encMessage b).length = b.length + 1 := by simp [encMessage]
  rw [encMessageTurns, runTurns_append hpush, ← hlen]
  refine runTurns_enc (encMessage b) _ _ (fun i => engine_of_mem_encMessage) hr hf (map_encode_encMessage b).symm ?_
  rw [runInstrs_encMessage (s := { s with encIq := messageWords b }) b he, drop_messageWords, hq]

/-- The pushes of a decoder message within the capacity and `n + 1` turns of `DEC` put the result out and leave the
engine idle with an empty queue (R239). -/
theorem runTurns_decMessageTurns {s : State} (t : List Byte) (hr : s.resetIn = false) (hd : s.dec = DecState.idle)
    (hq : s.decIq = []) (hf : s.decFaults = []) (hfits : s.messageFits t.length = true) :
    runTurns (decMessageTurns t) s = .next { s with decOq := s.decOq ++ resultWords (decodeRef t) } := by
  have hpush := runTurns_pushDec (messageWords t) s hr
  rw [hq, List.nil_append] at hpush
  have hroom : State.roomFor { s with decIq := messageWords t } t.length := State.roomFor_of_messageFits hd hfits
  rw [decMessageTurns, runTurns_append hpush, runTurns_dec t { s with decIq := messageWords t } hr hf hroom rfl,
    runInstrs_decMessage (s := { s with decIq := messageWords t }) hd hfits, drop_messageWords, hq]
  rfl

/-- Settles O58: steps take the turns of the schedule, and those are the message's. -/
theorem pushedMessageIsAnswered : Obligations.PushedMessageIsAnswered := by
  intro s rest hr
  refine ⟨fun b he hq hf => ?_, fun t hd hq hf hfits => ?_⟩
  · rw [stepsFollowTheSchedule]
    exact runTurns_encMessageTurns (s := { s with schedule := rest }) b hr he hq hf
  · rw [stepsFollowTheSchedule]
    exact runTurns_decMessageTurns (s := { s with schedule := rest }) t hr hd hq hf hfits

/-! ### The round trip -/

/-- A result holds one `EOM` (R77). -/
theorem messageEnds_resultWords (xs : List Byte) : messageEnds (resultWords xs) = 1 := by
  simp [resultWords]

/-- Settles O59: the encoder's turns, then the decoder's on what was put out, and `DECODE` of `ENCODE` is the identity. -/
theorem roundTripThroughBothEngines : Obligations.RoundTripThroughBothEngines := by
  rintro b s hr he hd ⟨hencIq, hdecIq⟩ ⟨hencF, hdecF⟩ hfits
  have henc := runTurns_encMessageTurns b hr he hencIq hencF
  have hdec := runTurns_decMessageTurns (s := { s with encOq := s.encOq ++ resultWords (encodeRef b) }) (encodeRef b)
    hr hd hdecIq hdecF hfits
  rw [decodeOfEncodeIsIdentity b] at hdec
  refine ⟨_, (runTurns_append henc).trans hdec, rfl, ⟨hencIq, hdecIq⟩, ⟨hencF, hdecF⟩, ?_, ?_⟩
  · simp [messageEnds_resultWords, Nat.add_assoc]
  · simp [messageEnds_resultWords, Nat.add_assoc]

end Sys2Proof.Machine
end
